-- ==== Sys2Proof/Word.lean ====
section
/-! DEFINITION. Words and the data formats of the block: 00_scope.md rules R9 to R11, 10_state.md rules R38 and R48,
30_encoding.md rules R91 and R96 to R106. Types only: what an operation computes stands under Machine/. -/

namespace Sys2Proof

/-- A byte of the register region or of a descriptor. -/
abbrev Byte := BitVec 8

/-- `u32` (R10). -/
abbrev Word := BitVec 32

/-- `u16` (R10). -/
abbrev Half := BitVec 16

/-- `s16`: an integer in -32768 to 32767 (R10). -/
abbrev S16 := { v : Int // -32768 ≤ v ∧ v ≤ 32767 }

/-- The channel layout, format LAYOUT (R99). -/
inductive Layout where
  | genericDual
  | signalTrigger
  deriving DecidableEq, Repr, Inhabited

/-- The layout's one-bit selector (R99, the spec's own numbering). -/
def Layout.selector : Layout → BitVec 1
  | .genericDual => 0
  | .signalTrigger => 1

/-- Who asked (R100); no rule of a session reads it (R159). -/
inductive Mode where
  | oneShot
  | continuous
  deriving DecidableEq, Repr, Inhabited

/-- Format REQUEST, the AcquisitionRequest (R32, R100). -/
structure Request where
  mode : Mode
  wordCount : Nat
  dacValue : Option Half
  deriving DecidableEq, Repr, Inhabited

/-- A ChannelSampleBlock (R38, R98); that the two lists have one length (R52) is checked, not built in, since ENCODE
names the operand with unequal lengths and refuses it (R174). -/
structure ChannelBlock where
  channelA : List S16
  channelB : List S16
  deriving DecidableEq, Repr

/-- The direction of a register transaction (R91). -/
inductive Dir where
  | rd
  | wr
  deriving DecidableEq, Repr

/-- What stands at an assigned offset of the register region (R21, R72). -/
inductive RegTarget where
  | trigger
  | busy
  | dac
  | sample (i : Nat)
  deriving DecidableEq, Repr

/-- One transaction as a line of a trace (R114): `data` is the word written, or the word the read returned. -/
structure Transaction where
  dir : Dir
  off : Nat
  data : Word
  deriving DecidableEq, Repr

/-- Format SPIKEEVENT (R102); the bucket is a number 0 to 6 (R103). -/
structure SpikeEvent where
  onsetIndex : Nat
  peakIndex : Nat
  peakHeight : S16
  bucket : Fin 7
  deriving DecidableEq, Repr

/-- Format LOCATERESULT (R105), over the type `φ` of the physical values, which is a parameter (R48); a window is an
inclusive range of indices. -/
structure LocateResult (φ : Type) where
  valid : Bool
  wavelengths : φ × φ
  peakIndices : List Nat
  peakHeights : List S16
  window : Option ((Int × Int) × (Int × Int))
  deriving DecidableEq, Repr

/-- The conditions (R106, R250). The block raises `acquisitionTimeout` only; `invalidCalibrationWindow` is LOCATE's null
result (R254); the other three belong to the platform (R253) or the network server (R256). -/
inductive Condition where
  | deviceUnavailable
  | acquisitionTimeout
  | malformedRequest
  | clientDisconnected
  | invalidCalibrationWindow
  deriving DecidableEq, Repr

/-- The condition's code (R106, R250, the spec's own numbers). -/
def Condition.code : Condition → Nat
  | .deviceUnavailable => 1
  | .acquisitionTimeout => 2
  | .malformedRequest => 3
  | .clientDisconnected => 4
  | .invalidCalibrationWindow => 5

/-- The typed operands that follow a CMD selector (R108), one form for each selector. -/
inductive Operand where
  | request (r : Request)
  | rawBlock (raw : List Word) (layout : Layout)
  | channels (b : ChannelBlock) (layout : Layout)
  | hysteresis (samples : List S16) (onset offset : Nat)
  | skipWindow (samples : List S16) (onset dead : Nat)
  | magnitude (m : Nat)
  | index (k : Nat)
  | waveforms (signal trigger : List S16)
  deriving DecidableEq, Repr

/-- An operation as it is presented to the block (R90): a register transaction, with its descriptor's bytes (the least
significant first), its width in bytes (R68) and the word written (R91); or a CMD selector's bytes with the typed
operands (R108). -/
inductive Presented where
  | reg (descriptor : List Byte) (width : Nat) (data : Option Word)
  | cmd (selector : List Byte) (operand : Operand)
  deriving DecidableEq, Repr

/-- Why a presented operation has no meaning. Each is safe: the model stops where the hardware's behaviour is not known. -/
inductive Reject where
  /-- A CMD selector 0x00 or 0x09 to 0xFF (R110). -/
  | reservedSelector
  /-- A CMD selector that is not one byte (R108). -/
  | selectorForm
  /-- The operands are not of the form the selector or the direction takes (R91, R108). -/
  | operandForm
  /-- A descriptor not written in its one form (R113). -/
  | descriptorForm
  /-- A transaction narrower or wider than 32 bits (R68). -/
  | width
  /-- A transaction at an offset that is not a multiple of 4 (R67). -/
  | misaligned
  /-- A transaction at an unassigned offset (R74). -/
  | unassigned
  deriving DecidableEq, Repr

end Sys2Proof
end

