-- ==== Sys2Proof/Config.lean ====
section
/-! DEFINITION. The parameters of 00_scope.md rules R5 to R7, taken as one configuration record, and the free values:
the draws of rule R18 and the values at reset that 10_state.md rule R54 calls unspecified. Nothing here has a value. -/

namespace Sys2Proof

/-- Which index `locate` looks up (R7, R225). -/
inductive LutIndexMode where
  | raw
  | rebased
  deriving DecidableEq, Repr, Inhabited

/-- The six lower edges of severity bands 1 to 6 (R6, R39). -/
structure BandEdges where
  e0 : Nat
  e1 : Nat
  e2 : Nat
  e3 : Nat
  e4 : Nat
  e5 : Nat
  deriving DecidableEq, Repr

/-- BAND_EDGE as a list, index 0 to 5 (R39). -/
def BandEdges.toList (b : BandEdges) : List Nat := [b.e0, b.e1, b.e2, b.e3, b.e4, b.e5]

/-- The configuration record (R5 to R7), over the type `φ` of the physical values, which is a parameter too (R7, R48);
`physZero` is `Phys.zero`. CAL_SIZE is the length of `cal`. -/
structure Params (φ : Type) where
  sampleBase : Nat
  bufDepth : Nat
  pollLimit : Nat
  layout : Layout
  bandEdge : BandEdges
  physZero : φ
  cal : List φ
  edgeThreshold : Int
  winHalf : Nat
  heightThreshold : Int
  indexBound : Nat
  lutIndexMode : LutIndexMode
  deriving DecidableEq, Repr

/-- Byte offset of TRIGGER (R5, R22). -/
abbrev triggerOff : Nat := 0x0
/-- Byte offset of BUSY (R5, R23). -/
abbrev busyOff : Nat := 0x8
/-- Byte offset of DAC_VALUE (R5, R24). -/
abbrev dacOff : Nat := 0x10
/-- Centre of window 1 after the edge (R7). -/
abbrev win1Offset : Nat := 650
/-- Centre of window 2 after the edge (R7). -/
abbrev win2Offset : Nat := 1250

/-- The constraints of rules R5 to R7 (premise P5 of R288). -/
structure Params.Valid {φ : Type} (p : Params φ) : Prop where
  base_aligned : p.sampleBase % 4 = 0
  base_above : 0x14 ≤ p.sampleBase
  depth_pos : 1 ≤ p.bufDepth
  limit_pos : 1 ≤ p.pollLimit
  edges_sorted : p.bandEdge.toList.Pairwise (· ≤ ·)
  cal_pos : 1 ≤ p.cal.length
  half_low : 50 ≤ p.winHalf
  half_high : p.winHalf < 300

/-- The freedom the constraints leave, with no constraint of its own: every legal configuration comes from one
(`Laws.Config.ofChoice_surjective`), and each gives a legal one (`Laws.Config.ofChoice_valid`). -/
structure Config.Choice (φ : Type) where
  baseWords : Nat
  depthLess : Nat
  limitLess : Nat
  layout : Layout
  band0 : Nat
  band1 : Nat
  band2 : Nat
  band3 : Nat
  band4 : Nat
  band5 : Nat
  physZero : φ
  calFirst : φ
  calRest : List φ
  edgeThreshold : Int
  winSlack : Nat
  heightThreshold : Int
  indexBound : Nat
  lutIndexMode : LutIndexMode
  deriving Inhabited

/-- The configuration a choice stands for. -/
def Params.ofChoice {φ : Type} (c : Config.Choice φ) : Params φ where
  sampleBase := 4 * (c.baseWords + 5)
  bufDepth := c.depthLess + 1
  pollLimit := c.limitLess + 1
  layout := c.layout
  bandEdge :=
    { e0 := c.band0
      e1 := c.band0 + c.band1
      e2 := c.band0 + c.band1 + c.band2
      e3 := c.band0 + c.band1 + c.band2 + c.band3
      e4 := c.band0 + c.band1 + c.band2 + c.band3 + c.band4
      e5 := c.band0 + c.band1 + c.band2 + c.band3 + c.band4 + c.band5 }
  physZero := c.physZero
  cal := c.calFirst :: c.calRest
  edgeThreshold := c.edgeThreshold
  winHalf := 50 + c.winSlack % 250
  heightThreshold := c.heightThreshold
  indexBound := c.indexBound
  lutIndexMode := c.lutIndexMode

/-- A type of physical values, up to the names of its values: one value, and one more for each number in a set (log 14).
Every nonempty type whose values can be told apart by numbers is one of these (`Laws.Config.physOf_general`). -/
abbrev PhysOf (others : Nat → Bool) : Type := Option { n : Nat // others n = true }

/-- Which set gives this machine's type: OPEN (R7, R48), no body (log 14). -/
opaque Config.physOthers : Nat → Bool

/-- `Phys`, the type of a physical (wavelength) value (R48): opaque, with decidable equality. -/
abbrev Phys : Type := PhysOf Config.physOthers

/-- The choice this machine was built with, `Phys.zero` and the table among it: OPEN (R5 to R7), no body (log 1). -/
opaque Config.choice : Config.Choice Phys

/-- The machine's configuration, fixed before reset is released and constant afterwards (R8, R287). -/
def Config.params : Params Phys := Params.ofChoice Config.choice

/-- The `n`-th `draw u32` of a run (R18): free, no body (log 2). -/
opaque Config.drawWord : Nat → Word

/-- The freedom behind the `n`-th `draw_nonzero u32`: no body (log 2). -/
opaque Config.drawBusy : Nat → Nat

/-- The `n`-th `draw_nonzero u32` of a run (R18): any word but 0, and every word but 0. -/
def Config.drawNonzero (n : Nat) : Word := BitVec.ofNat 32 (1 + Config.drawBusy n % 0xFFFFFFFF)

/-- `C.req` at reset: unspecified (R32, R54, R284), no body (log 8). -/
opaque Config.resetRequest : Request
/-- `K.onset_idx` at reset: unspecified (R44, R284), no body (log 8). -/
opaque Config.resetOnsetIdx : Nat
/-- `K.peak_idx` at reset: unspecified (R45, R284), no body (log 8). -/
opaque Config.resetPeakIdx : Nat
/-- The freedom behind `K.peak_val` at reset: no body (log 8). -/
opaque Config.resetPeakRaw : Fin 65536
/-- `K.cnt` at reset: unspecified (R46, R284), no body (log 8). -/
opaque Config.resetCnt : Nat

/-- `K.peak_val` at reset: unspecified (R45, R284): any `s16` (log 8). -/
def Config.resetPeakVal : S16 := ⟨(Config.resetPeakRaw.val : Int) - 32768, by
  have := Config.resetPeakRaw.isLt; omega⟩

end Sys2Proof
end

