-- ==== Sys2Proof/Syntax.lean ====
section
/-! DEFINITION. The operations of spec/opcode_table.json: the eight register transactions (30_encoding.md rule R92 and the
two reserved rows of rule R111) and the eight block operations (rule R108), with their operands. -/

namespace Sys2Proof

/-- One constructor for each row of the opcode table. -/
inductive Instr where
  /-- `WR.TRIGGER v` (R121). -/
  | wrTrigger (v : Word)
  /-- `RD.TRIGGER` (R122). -/
  | rdTrigger
  /-- `RD.BUSY` (R123). -/
  | rdBusy
  /-- `WR.BUSY v` (R124). -/
  | wrBusy (v : Word)
  /-- `WR.DAC v` (R125). -/
  | wrDac (v : Word)
  /-- `RD.SAMPLE i` (R127). -/
  | rdSample (i : Nat)
  /-- `RD.DAC`, reserved (R126). -/
  | rdDac
  /-- `WR.SAMPLE i v`, reserved (R128). -/
  | wrSample (i : Nat) (v : Word)
  /-- `ACQUIRE` and `ACQUIRE.C`, which differ in the request's mode (R114, R140). -/
  | acquire (r : Request)
  /-- `DECODE raw, layout` (R170). -/
  | decode (raw : List Word) (layout : Layout)
  /-- `ENCODE block, layout` (R174). -/
  | encode (b : ChannelBlock) (layout : Layout)
  /-- `CLASSIFY.HYST samples, onset, offset` (R190). -/
  | classifyHyst (samples : List S16) (onset offset : Nat)
  /-- `CLASSIFY.SKIP samples, onset, dead` (R195). -/
  | classifySkip (samples : List S16) (onset dead : Nat)
  /-- `BUCKET m` (R200). -/
  | bucket (m : Nat)
  /-- `LUT.READ k` (R216). -/
  | lutRead (k : Nat)
  /-- `LOCATE signal, trigger` (R220). -/
  | locate (signal trigger : List S16)
  deriving DecidableEq, Repr

end Sys2Proof
end

