-- ==== Sys2Proof/WellFormed.lean ====
section
/-! DEFINITION. Which operands have a meaning: the `require` lines of the operation rules, as 30_encoding.md rule R112 and
60_exceptions.md rule R255 list them. BUCKET is total for every operand (43_spike_classify.md rule R200). -/

namespace Sys2Proof

variable {φ : Type}

/-- The operands are ones the spec gives a meaning to under the configuration `p`. -/
def Instr.wellFormed (p : Params φ) : Instr → Bool
  | .wrTrigger _ => true
  | .rdTrigger => true
  | .rdBusy => true
  | .wrBusy _ => true
  | .wrDac _ => true
  | .rdSample i => decide (i < p.bufDepth)
  | .rdDac => true
  | .wrSample i _ => decide (i < p.bufDepth)
  | .acquire r => decide (r.wordCount ≤ p.bufDepth)
  | .decode _ _ => true
  | .encode b _ => decide (b.channelA.length = b.channelB.length)
  | .classifyHyst _ _ _ => true
  | .classifySkip _ _ dead => decide (1 ≤ dead)
  | .bucket _ => true
  | .lutRead k => decide (k < p.cal.length)
  | .locate signal trigger => decide (signal.length = trigger.length)

end Sys2Proof
end

