-- ==== Sys2Proof/Decode.lean ====
section
/-! DEFINITION. Decoding a presented operation (30_encoding.md rules R90 to R92 and R108 to R113, 20_memory.md rules R66 to
R68 and R72 to R74), and the encoder, from the same tables. -/

namespace Sys2Proof

variable {φ : Type}

/-! ## Bytes and numbers -/

/-- The number whose bytes are `bs`, the least significant first. -/
def leNat : List Byte → Nat
  | [] => 0
  | b :: bs => b.toNat + 256 * leNat bs

/-- The bytes of `n`, the least significant first, without a zero at the top; `fuel = n` is enough. -/
def minimalBytes : Nat → Nat → List Byte
  | 0, _ => []
  | fuel + 1, n => if n = 0 then [] else BitVec.ofNat 8 n :: minimalBytes fuel (n / 256)

/-- The bytes of a REG descriptor: three for the 17 bits of R91, and more where `off` is widened (R91). -/
def descriptorBytes (d : Nat) : List Byte :=
  BitVec.ofNat 8 d :: BitVec.ofNat 8 (d / 0x100) :: BitVec.ofNat 8 (d / 0x10000) ::
    minimalBytes (d / 0x1000000) (d / 0x1000000)

/-! ## Format REG -/

/-- `dir ‖ off[15:0]` with `dir` at bit 16 (R91). DESIGN CHOICE (log 4): where an implementation widens `off`, its bits
above 15 stand above bit 16. -/
def packDescriptor (dir : Dir) (off : Nat) : Nat :=
  off % 0x10000 + (match dir with | .rd => 0 | .wr => 0x10000) + 0x20000 * (off / 0x10000)

/-- Bit 16 of a descriptor (R91). -/
def descriptorDir (d : Nat) : Dir := if d / 0x10000 % 2 = 1 then .wr else .rd

/-- The offset of a descriptor (R91). -/
def descriptorOff (d : Nat) : Nat := d % 0x10000 + 0x10000 * (d / 0x20000)

/-- The address map (R72): what stands at byte offset `off`. The three named registers come first, then the range test of
the sample buffer (R92); a misaligned offset (R67) or an unassigned one (R74) has nothing. -/
def regTarget (p : Params φ) (off : Nat) : Except Reject RegTarget :=
  if off = triggerOff then .ok .trigger
  else if off = busyOff then .ok .busy
  else if off = dacOff then .ok .dac
  else if off % 4 ≠ 0 then .error .misaligned
  else if p.sampleBase ≤ off ∧ off < p.sampleBase + 4 * p.bufDepth then
    .ok (.sample ((off - p.sampleBase) / 4))
  else .error .unassigned

/-- Offset of sample word `i` (R25, R152); SAMPLE_STRIDE is 4 (R5). -/
def sampleOff (p : Params φ) (i : Nat) : Nat := p.sampleBase + 4 * i

/-- The read transaction of a register (R92); RD.DAC is the reserved row (R111). -/
def readInstr : RegTarget → Instr
  | .trigger => .rdTrigger
  | .busy => .rdBusy
  | .dac => .rdDac
  | .sample i => .rdSample i

/-- The write transaction of a register (R92); WR.SAMPLE is the reserved row (R111). -/
def writeInstr (v : Word) : RegTarget → Instr
  | .trigger => .wrTrigger v
  | .busy => .wrBusy v
  | .dac => .wrDac v
  | .sample i => .wrSample i v

/-- A register transaction at an offset (R92, R111). A read carries no data word and a write carries one (R91). -/
def decodeReg (p : Params φ) (dir : Dir) (off : Nat) (data : Option Word) : Except Reject Instr :=
  match dir, data with
  | .rd, none => (regTarget p off).map readInstr
  | .wr, some v => (regTarget p off).map (writeInstr v)
  | .rd, some _ => .error .operandForm
  | .wr, none => .error .operandForm

/-! ## Format CMD -/

/-- The selectors of R108, each with its operand form. All eight bits are compared (R109); every other selector is
reserved (R110). -/
def decodeCmd (op : Nat) (operand : Operand) : Except Reject Instr :=
  if op = 0x01 then match operand with | .request r => .ok (.acquire r) | _ => .error .operandForm
  else if op = 0x02 then match operand with | .rawBlock raw l => .ok (.decode raw l) | _ => .error .operandForm
  else if op = 0x03 then match operand with | .channels b l => .ok (.encode b l) | _ => .error .operandForm
  else if op = 0x04 then
    match operand with | .hysteresis xs on off => .ok (.classifyHyst xs on off) | _ => .error .operandForm
  else if op = 0x05 then
    match operand with | .skipWindow xs on dead => .ok (.classifySkip xs on dead) | _ => .error .operandForm
  else if op = 0x06 then match operand with | .magnitude m => .ok (.bucket m) | _ => .error .operandForm
  else if op = 0x07 then match operand with | .index k => .ok (.lutRead k) | _ => .error .operandForm
  else if op = 0x08 then match operand with | .waveforms s t => .ok (.locate s t) | _ => .error .operandForm
  else .error .reservedSelector

/-! ## The decoder and the encoder -/

/-- The operation a presented operation stands for, or why it has none. Total: every descriptor, selector and operand. -/
def decode (p : Params φ) : Presented → Except Reject Instr
  | .reg bytes width data =>
    if width ≠ 4 then .error .width
    else if descriptorBytes (leNat bytes) ≠ bytes then .error .descriptorForm
    else decodeReg p (descriptorDir (leNat bytes)) (descriptorOff (leNat bytes)) data
  | .cmd [op] operand => decodeCmd op.toNat operand
  | .cmd [] _ => .error .selectorForm
  | .cmd (_ :: _ :: _) _ => .error .selectorForm

/-- A read transaction at `off`. -/
def presentRead (off : Nat) : Presented := .reg (descriptorBytes (packDescriptor .rd off)) 4 none

/-- A write transaction at `off`. -/
def presentWrite (off : Nat) (v : Word) : Presented := .reg (descriptorBytes (packDescriptor .wr off)) 4 (some v)

/-- How an operation is presented (R92, R108). -/
def encode (p : Params φ) : Instr → Presented
  | .wrTrigger v => presentWrite triggerOff v
  | .rdTrigger => presentRead triggerOff
  | .rdBusy => presentRead busyOff
  | .wrBusy v => presentWrite busyOff v
  | .wrDac v => presentWrite dacOff v
  | .rdSample i => presentRead (sampleOff p i)
  | .rdDac => presentRead dacOff
  | .wrSample i v => presentWrite (sampleOff p i) v
  | .acquire r => .cmd [0x01#8] (.request r)
  | .decode raw l => .cmd [0x02#8] (.rawBlock raw l)
  | .encode b l => .cmd [0x03#8] (.channels b l)
  | .classifyHyst xs on off => .cmd [0x04#8] (.hysteresis xs on off)
  | .classifySkip xs on dead => .cmd [0x05#8] (.skipWindow xs on dead)
  | .bucket m => .cmd [0x06#8] (.magnitude m)
  | .lutRead k => .cmd [0x07#8] (.index k)
  | .locate s t => .cmd [0x08#8] (.waveforms s t)

/-! ## The words of the opcode table -/

/-- The operands of a CMD selector with every bit 0: the words above a row's bits (log 4). -/
def zeroOperand (op : Nat) : Operand :=
  if op = 0x02 then .rawBlock [] .genericDual
  else if op = 0x03 then .channels ⟨[], []⟩ .genericDual
  else if op = 0x04 then .hysteresis [] 0 0
  else if op = 0x05 then .skipWindow [] 0 0
  else if op = 0x06 then .magnitude 0
  else if op = 0x07 then .index 0
  else if op = 0x08 then .waveforms [] []
  else .request ⟨.oneShot, 0, none⟩

/-- The operation presented by a row of the table whose bits are `w`. The table's rows have 8 bits (format CMD) or 17
(format REG, 24 in whole bytes): the number of bits tells the formats apart, since their numbers overlap (R90). -/
def tableWord (nbits w : Nat) : Presented :=
  if nbits ≤ 8 then .cmd [BitVec.ofNat 8 w] (zeroOperand (w % 256))
  else .reg (descriptorBytes w) 4 (match descriptorDir w with | .rd => none | .wr => some 0)

/-- What the decoder reads from a row's word (the host's question). -/
def decodeTableWord (nbits w : Nat) : Option Instr :=
  match decode Config.params (tableWord nbits w) with
  | .ok i => some i
  | .error _ => none

end Sys2Proof
end

