-- ==== Sys2Proof/Machine/State.lean ====
section
/-! DEFINITION. The state of the block as plain data: 10_state.md rules R20 to R47 (device `V`, controller `C`, classifier
`K`), the ports of 41_acquire.md rules R157 and R158, and the model's own fields that stand for what the outside world does
next and for the draws; the reasons a step can stop; the machine right after reset (rule R54). -/

namespace Sys2Proof.Machine

/-- The bytes of the register region that hold a value, in one canonical form: addresses strictly rising (log 9). An
address that is not listed holds no value: a cell `none` of R25. -/
abbrev Memory := List Host.Cell

/-- Device state `V` (R21 to R28). -/
structure Device where
  /-- `V.trig`, the level of the trigger line (R26). -/
  trig : BitVec 1
  /-- `V.acquiring` (R27); BUSY reads zero or nonzero by it (R23). -/
  acquiring : Bool
  /-- `V.dac`, the level last validly written (R28). -/
  dac : Option Half
  /-- `V.buf`, the sample buffer (R25), as bytes of the register region (R64, R65). -/
  buf : Memory
  deriving DecidableEq, Repr

/-- `C.st` (R30). -/
inductive Session where
  | idle
  | triggering
  | busy
  | ready
  deriving DecidableEq, Repr

/-- `C.ph`, the phase inside `Triggering` (R31). -/
inductive Phase where
  | tDac
  | tHigh
  | tLow
  | tDiag
  deriving DecidableEq, Repr

/-- The result port (R38, format RESULT R101). -/
inductive ResultPort where
  | none
  | block (seq : Nat) (channels : ChannelBlock)
  | condition (seq : Nat) (name : Condition)
  deriving DecidableEq, Repr

/-- Controller state `C` (R30 to R38). -/
structure Controller where
  st : Session
  ph : Phase
  req : Request
  polls : Nat
  idx : Nat
  raw : List Word
  seq : Nat
  diag : Word
  result : ResultPort
  deriving DecidableEq, Repr

/-- Classifier working state `K` (R42 to R47). -/
structure Classifier where
  i : Nat
  inSpike : Bool
  onsetIdx : Nat
  peakIdx : Nat
  peakVal : S16
  cnt : Nat
  events : List SpikeEvent
  deriving DecidableEq, Repr

/-- What the operation of the last step gave back to the host (R270; the read transactions' result R122, R123, R127; a
result taken R158). -/
inductive Answer where
  | none
  | word (w : Word)
  | channels (b : ChannelBlock)
  | rawBlock (raw : List Word)
  | events (es : List SpikeEvent)
  | bucket (k : Fin 7)
  | phys (x : Phys)
  | located (r : LocateResult Phys)
  | result (r : ResultPort)
  deriving DecidableEq, Repr

/-- A move of an agent that is not the presenting of an operation (R19). -/
inductive Move where
  /-- The controller takes the next step of its session (R143 to R154). -/
  | controller
  /-- The controller accepts waiting request `n`: which one is not constrained (R157). -/
  | accept (n : Nat)
  /-- The device completes (R131). -/
  | completion
  /-- The host takes the result (R158). -/
  | take
  /-- Reset of the whole system (R280). -/
  | systemReset
  /-- Reset of the controller alone (R282, R283). -/
  | controllerReset
  deriving DecidableEq, Repr

/-- One coming move of the outside world or of an agent. -/
inductive Event where
  /-- The host, or another master of the register region, presents an operation (R90, R269, R270). -/
  | present (x : Presented)
  | move (m : Move)
  deriving DecidableEq, Repr

/-- The whole state. `agenda` and `draws` are the model's own: the moves still to come, in an order no rule constrains
(R19, log 3), and the number of draws made (R18, log 2). `answer` and `bus` hold what the last step gave back and the
register transaction it made, if any (log 6). -/
structure State where
  v : Device
  c : Controller
  k : Classifier
  waiting : List Request
  answer : Answer
  bus : Option Transaction
  agenda : List Event
  draws : Nat
  deriving DecidableEq, Repr

/-- Why a step stops with a fault. -/
inductive Fault where
  /-- Stuck (R14): the move named next is not enabled (a completion while not acquiring, VT27; a take with no result; an
  acceptance outside Idle or of no request; a controller step with none enabled). Raised by the moves of
  Machine/Agents.lean and Machine/Acquire.lean. Safe: no such execution exists. -/
  | notEnabled
  deriving DecidableEq, Repr

/-- Why a step refuses (R14, R255). Each is safe: the spec gives the input no meaning and the model stops there. -/
inductive Refusal where
  /-- An instruction without a meaning yet. Raised by Machine/Dispatch.lean only. Safe. -/
  | notModelled (mnemonic : String)
  /-- A presented operation or an offset without a meaning (R67, R68, R74, R110, R111). Raised by the step and by the
  register operations. Safe. -/
  | rejected (why : Reject)
  /-- A rising write of TRIGGER while acquiring (R129). Raised by WR.TRIGGER and by phase T_HIGH. Safe. -/
  | strobeWhileAcquiring
  /-- RD.DAC (R126). Raised by it on every path. Safe. -/
  | dacRead
  /-- WR.SAMPLE (R128). Raised by it on every path. Safe. -/
  | sampleWrite
  /-- A request with `word_count > BUF_DEPTH` (R142). Raised at acceptance. Safe. -/
  | wordCountBeyondBuffer
  /-- ENCODE or LOCATE with lists of unequal length (R174, R230). Raised by them. Safe. -/
  | unequalLengths
  /-- CLASSIFY.SKIP with `dead_samples = 0` (R195). Raised by it. Safe. -/
  | zeroDeadSamples
  /-- LUT.READ at or above CAL_SIZE (R216). Raised by it. Safe. -/
  | indexOutsideTable
  deriving DecidableEq, Repr

/-- `V` after reset (R54). -/
def Device.reset : Device := { trig := 0, acquiring := false, dac := none, buf := [] }

/-- `C` after reset (R54); `C.req` is unspecified (log 8). -/
def Controller.reset : Controller where
  st := .idle
  ph := .tDac
  req := Config.resetRequest
  polls := 0
  idx := 0
  raw := []
  seq := 0
  diag := 0
  result := .none

/-- `K` before the first classify operation: the start values of R42, R43 and R47, the others unspecified (log 8). -/
def Classifier.reset : Classifier where
  i := 0
  inSpike := false
  onsetIdx := Config.resetOnsetIdx
  peakIdx := Config.resetPeakIdx
  peakVal := Config.resetPeakVal
  cnt := Config.resetCnt
  events := []

/-- The machine right after reset (R54, R280, R281): nothing pending, nothing presented. -/
def State.reset : State where
  v := Device.reset
  c := Controller.reset
  k := Classifier.reset
  waiting := []
  answer := .none
  bus := none
  agenda := []
  draws := 0

end Sys2Proof.Machine
end

