-- ==== Sys2Proof/Machine/Operands.lean ====
section
/-! DEFINITION. Operand assembly: the conversions of 00_scope.md rule R11, the halves of a sample word (30_encoding.md rules
R96, R97 and R99), and the byte order of a register word (20_memory.md rules R64 and R65). -/

namespace Sys2Proof.Machine

/-- `s16_of` (R11): two's complement (G1, log 11). -/
def s16Of (h : Half) : S16 :=
  if hlt : h.toNat < 32768 then ⟨h.toNat, by omega⟩
  else ⟨(h.toNat : Int) - 65536, by have := h.isLt; omega⟩

/-- `u16_of` (R11). -/
def u16Of (v : S16) : Half :=
  if 0 ≤ v.val then BitVec.ofNat 16 v.val.toNat else BitVec.ofNat 16 (v.val + 65536).toNat

/-- `zext_32` (R11). -/
def zext32 (h : Half) : Word := h.setWidth 32

/-- `w[15:0]` (R96). -/
def loHalf (w : Word) : Half := w.extractLsb' 0 16

/-- `w[31:16]` (R96). -/
def hiHalf (w : Word) : Half := w.extractLsb' 16 16

/-- The sample of the low half (R97). -/
def loSample (w : Word) : S16 := s16Of (loHalf w)

/-- The sample of the high half (R97). -/
def hiSample (w : Word) : S16 := s16Of (hiHalf w)

/-- `u16_of(hi) ‖ u16_of(lo)` (R97, R174). -/
def joinSamples (hi lo : S16) : Word := u16Of hi ++ u16Of lo

/-- The sample of a word that `channelA` takes under a layout (R99). -/
def sampleA (l : Layout) (w : Word) : S16 :=
  match l with
  | .genericDual => loSample w
  | .signalTrigger => hiSample w

/-- The sample of a word that `channelB` takes under a layout (R99). -/
def sampleB (l : Layout) (w : Word) : S16 :=
  match l with
  | .genericDual => hiSample w
  | .signalTrigger => loSample w

/-- The word whose samples are `a` and `b` under a layout (R174). -/
def wordOf (l : Layout) (a b : S16) : Word :=
  match l with
  | .genericDual => joinSamples b a
  | .signalTrigger => joinSamples a b

/-- The role accessor `signal(b)` (R99): defined under SIGNAL_TRIGGER only. -/
def signalOf (l : Layout) (b : ChannelBlock) : Option (List S16) :=
  match l with
  | .genericDual => none
  | .signalTrigger => some b.channelA

/-- The role accessor `trigger(b)` (R99): defined under SIGNAL_TRIGGER only. -/
def triggerOf (l : Layout) (b : ChannelBlock) : Option (List S16) :=
  match l with
  | .genericDual => none
  | .signalTrigger => some b.channelB

/-- Byte `j` of a register word: bits `8*j + 7` to `8*j` (R64). -/
def byteOf (w : Word) (j : Nat) : Byte := w.extractLsb' (8 * j) 8

/-- The register word whose bytes are `b0` at the lowest offset to `b3` at the highest (R64). -/
def wordOfBytes (b0 b1 b2 b3 : Byte) : Word := b3 ++ b2 ++ b1 ++ b0

end Sys2Proof.Machine
end

