-- ==== Sys2Proof/Machine/Flags.lean ====
section
/-! DEFINITION. Magnitude and the comparisons (00_scope.md rules R15 to R17) and what decides each status value of 10_state.md
rule R50: the edge that sets `V.acquiring`, the tests that set and clear `K.in_spike`, and the tests behind `valid`. -/

namespace Sys2Proof.Machine

/-- `mag` (R16): 0 to 32768, `mag(-32768) = 32768`. -/
def mag (v : S16) : Nat := v.val.natAbs

/-- The level a written word gives the trigger line: its bit 0 (R22, R121). -/
def triggerLevel (v : Word) : BitVec 1 := v.extractLsb' 0 1

/-- The active edge: bit 0 goes from 0 to 1 (R121, D5). -/
def risingEdge (old : BitVec 1) (v : Word) : Bool := triggerLevel v == 1 && old == 0

/-- A word DAC_VALUE accepts: 1 to 65535 (R24, R125). -/
def dacAccepts (v : Word) : Bool := decide (1 ≤ v.toNat ∧ v.toNat ≤ 65535)

/-- Onset: the magnitude exceeds the threshold, strictly (R17, R186). -/
def isOnset (onset : Nat) (x : S16) : Bool := decide (onset < mag x)

/-- Hysteresis close: the magnitude falls to or below the threshold (R17, R190). -/
def isRelease (offset : Nat) (x : S16) : Bool := decide (mag x ≤ offset)

/-- A new running peak: strictly greater magnitude, so the earlier of equals stays (R187). -/
def isNewPeak (peak x : S16) : Bool := decide (mag peak < mag x)

/-- A rising edge of the trigger channel between two neighbours (R217). -/
def isTriggerEdge (threshold : Int) (a b : S16) : Bool := decide (threshold < b.val - a.val)

/-- The middle one of three neighbours is a local maximum above the height threshold (R218): signed, strict. -/
def isLocalMax (height : Int) (a b c : S16) : Bool := decide (a.val < b.val ∧ c.val < b.val ∧ height < b.val)

end Sys2Proof.Machine
end

