-- ==== Sys2Proof/Machine/Ops.lean ====
section
/-! DEFINITION. The named operations over the state: the bytes of the sample buffer, the draws, the register region with
the device behind it (40_register_transactions.md rules R120 to R131), and the reporting of a condition
(60_exceptions.md rules R251, R252 and R260). -/

namespace Sys2Proof.Machine

variable {φ : Type}

/-! ## Bytes of the register region -/

/-- The byte at an address, if it holds one. -/
def Memory.read : Memory → Nat → Option Byte
  | [], _ => none
  | (a, b) :: m, x => if x = a then some b else Memory.read m x

/-- Store one byte, keeping the addresses strictly rising. -/
def Memory.write : Memory → Nat → Byte → Memory
  | [], x, v => [(x, v)]
  | (a, b) :: m, x, v =>
    if x < a then (x, v) :: (a, b) :: m
    else if x = a then (x, v) :: m
    else (a, b) :: Memory.write m x v

/-- The canonical form: addresses strictly rising, so each at most once. An unlisted address holds no value, and no listed
one does not. -/
abbrev Memory.wf (m : Memory) : Prop := m.Pairwise (fun c d => c.1 < d.1)

/-- The register word at an offset, if its four bytes hold values (R64). -/
def Memory.readWord (m : Memory) (a : Nat) : Option Word :=
  match m.read a, m.read (a + 1), m.read (a + 2), m.read (a + 3) with
  | some b0, some b1, some b2, some b3 => some (wordOfBytes b0 b1 b2 b3)
  | _, _, _, _ => none

/-- Store a register word, the low byte at the lowest offset (R64). -/
def Memory.writeWord (m : Memory) (a : Nat) (w : Word) : Memory :=
  (((m.write a (byteOf w 0)).write (a + 1) (byteOf w 1)).write (a + 2) (byteOf w 2)).write (a + 3) (byteOf w 3)

/-- Store `n` drawn words at `base`, `base + 4`, …: word `i` is draw number `d + i` (R131). -/
def Memory.fill (m : Memory) (base d : Nat) : Nat → Memory
  | 0 => m
  | n + 1 => (Memory.fill m base d n).writeWord (base + 4 * n) (Config.drawWord (d + n))

/-! ## Updates of the state -/

/-- Replace the device's state. -/
def State.withV (s : State) (v : Device) : State := { s with v := v }

/-- Replace the controller's state. -/
def State.withC (s : State) (c : Controller) : State := { s with c := c }

/-- Replace the classifier's state. -/
def State.withK (s : State) (k : Classifier) : State := { s with k := k }

/-- Record the register transaction of this step (R114). -/
def State.onBus (s : State) (dir : Dir) (off : Nat) (data : Word) : State := { s with bus := some ⟨dir, off, data⟩ }

/-- Give the host its result (R270). -/
def State.answering (s : State) (a : Answer) : State := { s with answer := a }

/-- `n` draws were made (R18). -/
def State.drew (s : State) (n : Nat) : State := { s with draws := s.draws + n }

/-- The state as a step finds it: the next move taken off the agenda, the last step's ports cleared (log 6). -/
def State.begin (s : State) (rest : List Event) : State := { s with answer := .none, bus := none, agenda := rest }

/-! ## The registers -/

/-- WR.TRIGGER at the device (R121, R129): the level is bit 0; a rising one starts an acquisition, and is refused while
one runs. -/
def writeTrigger (v : Word) (s : State) : Except Refusal State :=
  if risingEdge s.v.trig v && s.v.acquiring then .error .strobeWhileAcquiring
  else .ok ((s.withV { s.v with
    trig := triggerLevel v
    acquiring := s.v.acquiring || risingEdge s.v.trig v }).onBus .wr triggerOff v)

/-- RD.TRIGGER at the device (R122). -/
def readTrigger (s : State) : Word × State :=
  let w := s.v.trig.setWidth 32
  (w, s.onBus .rd triggerOff w)

/-- RD.BUSY at the device (R123): a drawn nonzero word while acquiring, else 0. -/
def readBusy (s : State) : Word × State :=
  if s.v.acquiring then
    let w := Config.drawNonzero s.draws
    (w, (s.drew 1).onBus .rd busyOff w)
  else (0, s.onBus .rd busyOff 0)

/-- WR.BUSY at the device (R124): nothing changes. -/
def writeBusy (v : Word) (s : State) : State := s.onBus .wr busyOff v

/-- WR.DAC at the device (R125): a word in 1 to 65535 sets the level, any other is silently rejected. -/
def writeDac (v : Word) (s : State) : State :=
  if dacAccepts v then (s.withV { s.v with dac := some (loHalf v) }).onBus .wr dacOff v
  else s.onBus .wr dacOff v

/-- RD.SAMPLE at the device (R127): the cell, or a drawn word while acquiring or when the cell was never filled. -/
def readSample (p : Params φ) (i : Nat) (s : State) : Word × State :=
  let drawn := (Config.drawWord s.draws, (s.drew 1).onBus .rd (sampleOff p i) (Config.drawWord s.draws))
  if s.v.acquiring then drawn
  else match s.v.buf.readWord (sampleOff p i) with
    | some w => (w, s.onBus .rd (sampleOff p i) w)
    | none => drawn

/-- `RegRead(off)` (R12): one read transaction of the register region. -/
def regRead (p : Params φ) (off : Nat) (s : State) : Except Refusal (Word × State) :=
  match regTarget p off with
  | .ok .trigger => .ok (readTrigger s)
  | .ok .busy => .ok (readBusy s)
  | .ok .dac => .error .dacRead
  | .ok (.sample i) => .ok (readSample p i s)
  | .error why => .error (.rejected why)

/-- `RegWrite(off, v)` (R12): one write transaction of the register region. -/
def regWrite (p : Params φ) (off : Nat) (v : Word) (s : State) : Except Refusal State :=
  match regTarget p off with
  | .ok .trigger => writeTrigger v s
  | .ok .busy => .ok (writeBusy v s)
  | .ok .dac => .ok (writeDac v s)
  | .ok (.sample _) => .error .sampleWrite
  | .error why => .error (.rejected why)

/-! ## Outcomes -/

/-- A transaction's outcome as the step's: a refusal stops, a new state goes on. -/
def outcomeOf (r : Except Refusal State) : Host.Outcome State Fault Refusal :=
  match r with
  | .ok t => .next t
  | .error why => .refused why

/-- The word of a read transaction, given to the host (R122, R123, R127). -/
def answerWord (r : Word × State) : Host.Outcome State Fault Refusal := .next (r.2.answering (.word r.1))

/-- Raise a condition (R14, R251, R260): the session is over, its words are discarded, the result port carries the
session's number and the condition's name, and nothing is saved, since nothing is resumed (R261: there is no return). -/
def raiseCondition (name : Condition) (s : State) : State :=
  s.withC { s.c with raw := [], result := .condition s.c.seq name, st := .idle }

end Sys2Proof.Machine
end

