-- ==== Sys2Proof/Machine/Samples.lean ====
section
/-! DEFINITION. DECODE and ENCODE, the sample word demultiplexer (42_sample_decode.md rules R170 to R178). -/

namespace Sys2Proof.Machine

/-- DECODE (R170). -/
def decodeBlock (raw : List Word) (l : Layout) : ChannelBlock where
  channelA := raw.map (sampleA l)
  channelB := raw.map (sampleB l)

/-- ENCODE of two channels of one length (R174). -/
def encodeBlock (b : ChannelBlock) (l : Layout) : List Word := List.zipWith (wordOf l) b.channelA b.channelB

/-- `DECODE raw, layout` (R170): total, no state but the answer. -/
def execDecode (raw : List Word) (l : Layout) (s : State) : Host.Outcome State Fault Refusal :=
  .next (s.answering (.channels (decodeBlock raw l)))

/-- `ENCODE b, layout` (R174): refused unless the channels have one length. -/
def execEncode (b : ChannelBlock) (l : Layout) (s : State) : Host.Outcome State Fault Refusal :=
  if b.channelA.length = b.channelB.length then .next (s.answering (.rawBlock (encodeBlock b l)))
  else .refused .unequalLengths

end Sys2Proof.Machine
end

