-- ==== Sys2Proof/Machine/Acquire.lean ====
section
/-! DEFINITION. ACQUIRE, the acquisition state machine (41_acquire.md rules R140 to R162): acceptance, which the operation
itself makes, and the steps the controller then takes by itself, one register transaction each. -/

namespace Sys2Proof.Machine

variable {φ : Type}

/-- Acceptance (R142) of a request in `Idle`. -/
def accept (p : Params φ) (r : Request) (s : State) : Host.Outcome State Fault Refusal :=
  if p.bufDepth < r.wordCount then .refused .wordCountBeyondBuffer
  else .next (s.withC { s.c with
    req := r
    seq := s.c.seq + 1
    polls := 0
    idx := 0
    raw := []
    result := .none
    st := .triggering
    ph := if r.dacValue = none then .tHigh else .tDac })

/-- A request that finds the controller not `Idle` waits at the request port (R157, log 7). -/
def enqueue (r : Request) (s : State) : State := { s with waiting := s.waiting ++ [r] }

/-- `ACQUIRE r` (R140): accepted in `Idle` (R142), else it waits, neither accepted nor lost (R157). -/
def execAcquire (r : Request) (s : State) : Host.Outcome State Fault Refusal :=
  match s.c.st with
  | .idle => accept Config.params r s
  | .triggering => .next (enqueue r s)
  | .busy => .next (enqueue r s)
  | .ready => .next (enqueue r s)

/-- Phase `T_DAC` (R143): the level is written, zero extended (R94). -/
def stepDac (p : Params φ) (s : State) : Host.Outcome State Fault Refusal :=
  match s.c.req.dacValue with
  | some d =>
    match regWrite p dacOff (zext32 d) s with
    | .ok t => .next (t.withC { t.c with ph := .tHigh })
    | .error why => .refused why
  | none => .fault .notEnabled

/-- Phase `T_HIGH` (R144): the rising write of the strobe, whatever BUSY holds. -/
def stepHigh (p : Params φ) (s : State) : Host.Outcome State Fault Refusal :=
  match regWrite p triggerOff 1 s with
  | .ok t => .next (t.withC { t.c with ph := .tLow })
  | .error why => .refused why

/-- Phase `T_LOW` (R145): the falling write of the strobe. -/
def stepLow (p : Params φ) (s : State) : Host.Outcome State Fault Refusal :=
  match regWrite p triggerOff 0 s with
  | .ok t => .next (t.withC { t.c with ph := .tDiag })
  | .error why => .refused why

/-- Phase `T_DIAG` (R146): the diagnostic read, whose value decides nothing, and the transition to `Busy`. -/
def stepDiag (p : Params φ) (s : State) : Host.Outcome State Fault Refusal :=
  match regRead p triggerOff s with
  | .ok (w, t) => .next (t.withC { t.c with diag := w, st := .busy })
  | .error why => .refused why

/-- What the word of a poll decides (R148): zero first (R149), then the bound (R150), else another poll. -/
def afterPoll (p : Params φ) (w : Word) (s : State) : State :=
  if w = 0 then s.withC { s.c with st := .ready }
  else if s.c.polls = p.pollLimit then raiseCondition .acquisitionTimeout s
  else s

/-- The poll step (R148). -/
def stepPoll (p : Params φ) (s : State) : Host.Outcome State Fault Refusal :=
  match regRead p busyOff s with
  | .ok (w, t) => .next (afterPoll p w (t.withC { t.c with polls := t.c.polls + 1 }))
  | .error why => .refused why

/-- The sample read step (R152). -/
def stepSample (p : Params φ) (s : State) : Host.Outcome State Fault Refusal :=
  match regRead p (sampleOff p s.c.idx) s with
  | .ok (w, t) => .next (t.withC { t.c with raw := t.c.raw ++ [w], idx := t.c.idx + 1 })
  | .error why => .refused why

/-- Delivery (R154): the words are decoded under the configured layout and leave with the session's number. -/
def deliver (p : Params φ) (s : State) : State :=
  s.withC { s.c with result := .block s.c.seq (decodeBlock s.c.raw p.layout), raw := [], st := .idle }

/-- The controller's next step in a session (R141): the one that is enabled. In `Idle` it has none; acceptance is its own
move. -/
def controllerStep (p : Params φ) (s : State) : Host.Outcome State Fault Refusal :=
  match s.c.st with
  | .idle => .fault .notEnabled
  | .triggering =>
    match s.c.ph with
    | .tDac => stepDac p s
    | .tHigh => stepHigh p s
    | .tLow => stepLow p s
    | .tDiag => stepDiag p s
  | .busy => stepPoll p s
  | .ready =>
    if s.c.idx < s.c.req.wordCount then stepSample p s
    else if s.c.idx = s.c.req.wordCount then .next (deliver p s)
    else .fault .notEnabled

end Sys2Proof.Machine
end

