-- ==== Sys2Proof/Machine/Agents.lean ====
section
/-! DEFINITION. The moves of the agents that are not operations (00_scope.md rule R19): the device's completion
(40_register_transactions.md rule R131), the host's taking of a result and the acceptance of a waiting request
(41_acquire.md rules R157 and R158), and the resets (70_reset_and_hazards.md rules R280 to R283). A move that is not
enabled is a stuck step (00_scope.md rule R14). -/

namespace Sys2Proof.Machine

variable {φ : Type}

/-- Completion (R131): every cell is drawn anew and the busy flag falls, in one step; enabled while acquiring. -/
def completion (p : Params φ) (s : State) : Host.Outcome State Fault Refusal :=
  if s.v.acquiring then
    .next ((s.withV { s.v with
      buf := s.v.buf.fill p.sampleBase s.draws p.bufDepth
      acquiring := false }).drew p.bufDepth)
  else .fault .notEnabled

/-- The host takes the result (R158): enabled when there is one, and it is then gone. -/
def takeResult (s : State) : Host.Outcome State Fault Refusal :=
  match s.c.result with
  | .none => .fault .notEnabled
  | .block seq b => .next ((s.withC { s.c with result := .none }).answering (.result (.block seq b)))
  | .condition seq name => .next ((s.withC { s.c with result := .none }).answering (.result (.condition seq name)))

/-- Waiting request `n` is accepted (R157, R142): enabled in `Idle`. -/
def acceptWaiting (p : Params φ) (n : Nat) (s : State) : Host.Outcome State Fault Refusal :=
  match s.c.st, s.waiting[n]? with
  | .idle, some r => accept p r { s with waiting := s.waiting.eraseIdx n }
  | _, _ => .fault .notEnabled

/-- Reset of the whole system (R280, R281). The moves still to come and the number of draws made are not state of the block
and stay (log 13). -/
def systemReset (s : State) : State := { State.reset with agenda := s.agenda, draws := s.draws }

/-- Reset of the controller alone (R282, R283): `C` as after reset, the device and everything else as it was (log 13). -/
def controllerReset (s : State) : State := s.withC Controller.reset

/-- A named move. -/
def moveStep (p : Params φ) (m : Move) (s : State) : Host.Outcome State Fault Refusal :=
  match m with
  | .controller => controllerStep p s
  | .accept n => acceptWaiting p n s
  | .completion => completion p s
  | .take => takeResult s
  | .systemReset => .next (systemReset s)
  | .controllerReset => .next (controllerReset s)

/-- What happens when no move is named (log 5): a session goes on (R300: the controller is scheduled); in `Idle` the first
waiting request is accepted, and with none waiting the controller waits (R280). The device never completes by itself
here (R132). -/
def unattended (p : Params φ) (s : State) : Host.Outcome State Fault Refusal :=
  match s.c.st with
  | .idle =>
    match s.waiting with
    | [] => .next s
    | _ :: _ => acceptWaiting p 0 s
  | .triggering => controllerStep p s
  | .busy => controllerStep p s
  | .ready => controllerStep p s

end Sys2Proof.Machine
end

