-- ==== Sys2Proof/Machine/Classify.lean ====
section
/-! DEFINITION. The spike classifier and the severity lookup (43_spike_classify.md rules R185 to R204), as the streaming
machine over `K` of rule R189. -/

namespace Sys2Proof.Machine

/-- BUCKET (R200): how many edges the magnitude has reached. -/
def bucketOf (edges : BandEdges) (m : Nat) : Fin 7 :=
  ⟨edges.toList.countP (fun e => decide (e ≤ m)), by
    have := List.countP_le_length (p := fun e => decide (e ≤ m)) (l := edges.toList)
    simp only [BandEdges.toList, List.length_cons, List.length_nil] at this ⊢
    omega⟩

/-- The start of a classify operation (R189): nothing carries over. -/
def Classifier.start (k : Classifier) : Classifier := { k with i := 0, inSpike := false, events := [] }

/-- A spike begins at the sample examined (R186); `K.cnt` is set to 1 (R46, R195). -/
def Classifier.onset (x : S16) (k : Classifier) : Classifier :=
  { k with inSpike := true, onsetIdx := k.i, peakIdx := k.i, peakVal := x }

/-- The sample examined replaces the peak exactly when its magnitude is greater (R187). -/
def Classifier.track (x : S16) (k : Classifier) : Classifier :=
  if isNewPeak k.peakVal x then { k with peakIdx := k.i, peakVal := x } else k

/-- The event of the current spike (R188, R201). -/
def Classifier.event (edges : BandEdges) (k : Classifier) : SpikeEvent where
  onsetIndex := k.onsetIdx
  peakIndex := k.peakIdx
  peakHeight := k.peakVal
  bucket := bucketOf edges (mag k.peakVal)

/-- The spike closes (R188). -/
def Classifier.close (edges : BandEdges) (k : Classifier) : Classifier :=
  { k with events := k.events ++ [k.event edges], inSpike := false }

/-- One sample in hysteresis mode (R190), before the index advances. -/
def hystSample (edges : BandEdges) (onset offset : Nat) (x : S16) (k : Classifier) : Classifier :=
  if k.inSpike then
    if isRelease offset x then k.close edges else k.track x
  else if isOnset onset x then k.onset x
  else k

/-- One sample in skip-window mode (R195), before the index advances: onset or peak and count, then the close test. -/
def skipSample (edges : BandEdges) (onset dead : Nat) (x : S16) (k : Classifier) : Classifier :=
  let k1 :=
    if k.inSpike then { k.track x with cnt := k.cnt + 1 }
    else if isOnset onset x then { k.onset x with cnt := 1 }
    else k
  if k1.inSpike && k1.cnt == dead then k1.close edges else k1

/-- The next sample is examined (R42). -/
def Classifier.advance (k : Classifier) : Classifier := { k with i := k.i + 1 }

/-- The samples in hysteresis mode, index 0 upward (R185, R190). -/
def hystRun (edges : BandEdges) (onset offset : Nat) (k : Classifier) (xs : List S16) : Classifier :=
  xs.foldl (fun k x => (hystSample edges onset offset x k).advance) k

/-- The samples in skip-window mode, index 0 upward (R185, R195). -/
def skipRun (edges : BandEdges) (onset dead : Nat) (k : Classifier) (xs : List S16) : Classifier :=
  xs.foldl (fun k x => (skipSample edges onset dead x k).advance) k

/-- The result of a classify operation is `K.events` after the last sample (R189). -/
def giveEvents (k : Classifier) (s : State) : Host.Outcome State Fault Refusal :=
  .next ((s.withK k).answering (.events k.events))

/-- `CLASSIFY.HYST samples, onset, offset` (R190). -/
def execClassifyHyst (xs : List S16) (onset offset : Nat) (s : State) : Host.Outcome State Fault Refusal :=
  giveEvents (hystRun Config.params.bandEdge onset offset s.k.start xs) s

/-- `CLASSIFY.SKIP samples, onset, dead` (R195): refused with no window. -/
def execClassifySkip (xs : List S16) (onset dead : Nat) (s : State) : Host.Outcome State Fault Refusal :=
  if dead = 0 then .refused .zeroDeadSamples
  else giveEvents (skipRun Config.params.bandEdge onset dead s.k.start xs) s

/-- `BUCKET m` (R200): total for every `m`. -/
def execBucket (m : Nat) (s : State) : Host.Outcome State Fault Refusal :=
  .next (s.answering (.bucket (bucketOf Config.params.bandEdge m)))

end Sys2Proof.Machine
end

