-- ==== Sys2Proof/Machine/Locate.lean ====
section
/-! DEFINITION. The calibration table and `locate` (44_lut_locate.md rules R215 to R231). The consistency check of rule R223
has no effect and is left out, as the rule says (log 15). -/

namespace Sys2Proof.Machine

variable {φ : Type}

/-- `LUT.READ k` (R216). -/
def execLutRead (k : Nat) (s : State) : Host.Outcome State Fault Refusal :=
  match Config.params.cal[k]? with
  | some x => .next (s.answering (.phys x))
  | none => .refused .indexOutsideTable

/-- The edge index (R217): the smallest index whose first difference exceeds the threshold. -/
def edgeIndex (threshold : Int) : List S16 → Option Nat
  | [] => none
  | [_] => none
  | a :: b :: rest =>
    if isTriggerEdge threshold a b then some 0
    else (edgeIndex threshold (b :: rest)).map (· + 1)

/-- The local maxima above the height threshold (R218) of a list whose first element has index `i`, ascending, each with
its height. -/
def peaksFrom (height : Int) (i : Nat) : List S16 → List (Nat × S16)
  | [] => []
  | [_] => []
  | [_, _] => []
  | a :: b :: c :: rest =>
    if isLocalMax height a b c then (i + 1, b) :: peaksFrom height (i + 1) (b :: c :: rest)
    else peaksFrom height (i + 1) (b :: c :: rest)

/-- The local maxima of a signal (R218, R220: `P` with `PH`). -/
def peaks (height : Int) (signal : List S16) : List (Nat × S16) := peaksFrom height 0 signal

/-- The two windows after the edge (R219), not clipped to the list. -/
def windowsAfter (half e : Nat) : (Int × Int) × (Int × Int) :=
  (((e : Int) + win1Offset - half, (e : Int) + win1Offset + half),
   ((e : Int) + win2Offset - half, (e : Int) + win2Offset + half))

/-- An index inside one of the two windows (R219), both ends included. -/
def insideWindows (w : (Int × Int) × (Int × Int)) (i : Nat) : Bool :=
  decide ((w.1.1 ≤ (i : Int) ∧ (i : Int) ≤ w.1.2) ∨ (w.2.1 ≤ (i : Int) ∧ (i : Int) ≤ w.2.2))

/-- The re-based index (R222). -/
def rebase (e c : Nat) : Int := (c : Int) - e

/-- The index looked up for a candidate (R225). -/
def lookupIndex (mode : LutIndexMode) (e c : Nat) : Nat :=
  match mode with
  | .raw => c
  | .rebased => (rebase e c).toNat

/-- The two physical values of two candidates after an edge, if there are any (R224, R226, R227). -/
def calibrate (p : Params φ) (e c1 c2 : Nat) : Option (φ × φ) :=
  if rebase e c2 < p.indexBound then
    match p.cal[lookupIndex p.lutIndexMode e c1]?, p.cal[lookupIndex p.lutIndexMode e c2]? with
    | some x, some y => some (x, y)
    | _, _ => none
  else none

/-- The two candidates' values (R221): there must be exactly two maxima inside the windows. -/
def calibrateAll (p : Params φ) (e : Nat) (candidates : List Nat) : Option (φ × φ) :=
  match candidates with
  | [c1, c2] => calibrate p e c1 c2
  | _ => none

/-- The null result (R228): InvalidCalibrationWindow (R254). -/
def nullResult (p : Params φ) (pk : List (Nat × S16)) (w : Option ((Int × Int) × (Int × Int))) : LocateResult φ where
  valid := false
  wavelengths := (p.physZero, p.physZero)
  peakIndices := pk.map (·.1)
  peakHeights := pk.map (·.2)
  window := w

/-- LOCATE of two lists of one length (R220). -/
def locateResult (p : Params φ) (signal trigger : List S16) : LocateResult φ :=
  let pk := peaks p.heightThreshold signal
  match edgeIndex p.edgeThreshold trigger with
  | none => nullResult p pk none
  | some e =>
    let w := windowsAfter p.winHalf e
    match calibrateAll p e ((pk.map (·.1)).filter (insideWindows w)) with
    | none => nullResult p pk (some w)
    | some xy =>
      { valid := true
        wavelengths := xy
        peakIndices := pk.map (·.1)
        peakHeights := pk.map (·.2)
        window := some w }

/-- `LOCATE signal, trigger` (R220): refused unless the lists have one length (R230). -/
def execLocate (signal trigger : List S16) (s : State) : Host.Outcome State Fault Refusal :=
  if signal.length = trigger.length then .next (s.answering (.located (locateResult Config.params signal trigger)))
  else .refused .unequalLengths

end Sys2Proof.Machine
end

