-- ==== Sys2Proof/Machine/Registers.lean ====
section
/-! DEFINITION. The register transactions as operations (40_register_transactions.md rules R121 to R129). A transaction that
is presented acts on the device as the controller's own do; that nothing but the controller should issue one is the host's
duty (60_exceptions.md rule R269, log 12). -/

namespace Sys2Proof.Machine

/-- `WR.TRIGGER v` (R121, R129). -/
def execWrTrigger (v : Word) (s : State) : Host.Outcome State Fault Refusal := outcomeOf (writeTrigger v s)

/-- `RD.TRIGGER` (R122). -/
def execRdTrigger (s : State) : Host.Outcome State Fault Refusal := answerWord (readTrigger s)

/-- `RD.BUSY` (R123). -/
def execRdBusy (s : State) : Host.Outcome State Fault Refusal := answerWord (readBusy s)

/-- `WR.BUSY v` (R124). -/
def execWrBusy (v : Word) (s : State) : Host.Outcome State Fault Refusal := .next (writeBusy v s)

/-- `WR.DAC v` (R125). -/
def execWrDac (v : Word) (s : State) : Host.Outcome State Fault Refusal := .next (writeDac v s)

/-- `RD.SAMPLE i` (R127); beyond the buffer the offset is unassigned (R74). -/
def execRdSample (i : Nat) (s : State) : Host.Outcome State Fault Refusal :=
  if i < Config.params.bufDepth then answerWord (readSample Config.params i s)
  else .refused (.rejected .unassigned)

/-- `RD.DAC` (R126): refused. -/
def execRdDac (_s : State) : Host.Outcome State Fault Refusal := .refused .dacRead

/-- `WR.SAMPLE i v` (R128): refused. -/
def execWrSample (_i : Nat) (_v : Word) (_s : State) : Host.Outcome State Fault Refusal := .refused .sampleWrite

end Sys2Proof.Machine
end

