-- ==== Sys2Proof/Machine/Dispatch.lean ====
section
/-! DEFINITION. The meaning of every operation of spec/opcode_table.json: one arm a constructor. -/

namespace Sys2Proof.Machine

def exec (i : Instr) (s : State) : Host.Outcome State Fault Refusal :=
  match i with
  | .wrTrigger v => Sys2Proof.Machine.execWrTrigger v s
  | .rdTrigger => Sys2Proof.Machine.execRdTrigger s
  | .rdBusy => Sys2Proof.Machine.execRdBusy s
  | .wrBusy v => Sys2Proof.Machine.execWrBusy v s
  | .wrDac v => Sys2Proof.Machine.execWrDac v s
  | .rdSample n => Sys2Proof.Machine.execRdSample n s
  | .rdDac => Sys2Proof.Machine.execRdDac s
  | .wrSample n v => Sys2Proof.Machine.execWrSample n v s
  | .acquire r => Sys2Proof.Machine.execAcquire r s
  | .decode raw l => Sys2Proof.Machine.execDecode raw l s
  | .encode b l => Sys2Proof.Machine.execEncode b l s
  | .classifyHyst xs onset offset => Sys2Proof.Machine.execClassifyHyst xs onset offset s
  | .classifySkip xs onset dead => Sys2Proof.Machine.execClassifySkip xs onset dead s
  | .bucket m => Sys2Proof.Machine.execBucket m s
  | .lutRead k => Sys2Proof.Machine.execLutRead k s
  | .locate signal trigger => Sys2Proof.Machine.execLocate signal trigger s

end Sys2Proof.Machine
end

