-- ==== Sys2Proof/Machine/Step.lean ====
section
/-! DEFINITION. One step of the machine: the next move of the agenda, or what happens when none is named (00_scope.md rules
R14 and R19, log 3). -/

namespace Sys2Proof.Machine

/-- One step. A presented operation is decoded and executed; a named move is made; the ports hold what this step does. -/
def step (s : State) : Host.Outcome State Fault Refusal :=
  match s.agenda with
  | [] => unattended Config.params (s.begin [])
  | .present x :: rest =>
    match decode Config.params x with
    | .ok i => exec i (s.begin rest)
    | .error why => .refused (.rejected why)
  | .move m :: rest => moveStep Config.params m (s.begin rest)

/-- The row's operation is presented next (log 4, log 5): it heads the agenda. -/
def State.withFetchWord (s : State) (nbits w : Nat) : State :=
  { s with agenda := .present (tableWord nbits w) :: s.agenda }

end Sys2Proof.Machine
end

