-- ==== Sys2Proof/Safety.lean ====
section
/-! DEFINITION. What the statements call a good state: the invariants of a session (10_state.md rules R51 to R53,
41_acquire.md rules R142 to R154), the handshake with the device under the host's duty of exclusive access
(60_exceptions.md rule R269), and how much of a session is left (41_acquire.md rule R156). -/

namespace Sys2Proof.Machine

variable {φ : Type}

/-- Every listed byte of the buffer lies in `SAMPLE_BASE` to `SAMPLE_BASE + 4*BUF_DEPTH - 1` (R72, R73). -/
def Memory.inBuffer (p : Params φ) (m : Memory) : Prop :=
  ∀ c ∈ m, p.sampleBase ≤ c.1 ∧ c.1 < p.sampleBase + 4 * p.bufDepth

/-- What each session state says of the other fields of `C`. -/
def Controller.sessionOk (p : Params φ) (c : Controller) : Prop :=
  match c.st with
  | .idle => c.raw = []
  | .triggering =>
    c.raw = [] ∧ c.idx = 0 ∧ c.polls = 0 ∧ c.result = .none ∧ c.req.wordCount ≤ p.bufDepth ∧
      (c.ph = .tDac → c.req.dacValue.isSome)
  | .busy =>
    c.raw = [] ∧ c.idx = 0 ∧ c.polls < p.pollLimit ∧ c.result = .none ∧ c.req.wordCount ≤ p.bufDepth
  | .ready =>
    c.raw.length = c.idx ∧ c.idx ≤ c.req.wordCount ∧ c.result = .none ∧ c.req.wordCount ≤ p.bufDepth

/-- A result on the port is whole and belongs to the last session accepted (R38, R52, R53, R101). -/
def Controller.resultOk (c : Controller) : Prop :=
  match c.result with
  | .none => True
  | .block seq b => c.st = .idle ∧ seq = c.seq ∧ b.channelA.length = b.channelB.length
  | .condition seq name => c.st = .idle ∧ seq = c.seq ∧ name = .acquisitionTimeout

/-- The invariant every step keeps, whatever any agent does. -/
structure State.Inv (p : Params φ) (s : State) : Prop where
  buf_wf : s.v.buf.wf
  buf_inBuffer : s.v.buf.inBuffer p
  session : s.c.sessionOk p
  result : s.c.resultOk

/-- The host keeps its duty (R269, premise P4 of R288) in this move: no transaction comes from another master, and the
controller is not reset alone (R282). -/
def Event.exclusive : Event → Bool
  | .present (.reg _ _ _) => false
  | .present (.cmd _ _) => true
  | .move .controller => true
  | .move (.accept _) => true
  | .move .completion => true
  | .move .take => true
  | .move .systemReset => true
  | .move .controllerReset => false

/-- Every cell of the buffer holds a word: a completion has happened since reset (R25, R131). -/
def State.filled (p : Params φ) (s : State) : Prop :=
  ∀ i, i < p.bufDepth → (s.v.buf.readWord (sampleOff p i)).isSome

/-- The session has made its rising write and has not yet seen BUSY read zero. -/
def Controller.strobed (c : Controller) : Prop :=
  (c.st = .triggering ∧ (c.ph = .tLow ∨ c.ph = .tDiag)) ∨ c.st = .busy

/-- The handshake (R80, R289, R291): the line is high only inside the strobe; after the strobe the device acquires or has
filled the buffer; in `Ready` it does not acquire and the buffer is whole. -/
structure State.Handshake (p : Params φ) (s : State) : Prop where
  agenda : ∀ e ∈ s.agenda, e.exclusive
  line : s.v.trig = 1 ↔ s.c.st = .triggering ∧ s.c.ph = .tLow
  strobed : s.c.strobed → s.v.acquiring = true ∨ s.filled p
  ready : s.c.st = .ready → s.v.acquiring = false ∧ s.filled p

/-- A bound on the controller's steps to the end of the session (R156): its transactions, and the delivery. -/
def Controller.stepsLeft (p : Params φ) (c : Controller) : Nat :=
  match c.st with
  | .idle => 0
  | .triggering =>
    match c.ph with
    | .tDac => p.pollLimit + c.req.wordCount + 5
    | .tHigh => p.pollLimit + c.req.wordCount + 4
    | .tLow => p.pollLimit + c.req.wordCount + 3
    | .tDiag => p.pollLimit + c.req.wordCount + 2
  | .busy => (p.pollLimit - c.polls) + c.req.wordCount + 1
  | .ready => (c.req.wordCount - c.idx) + 1

end Sys2Proof.Machine
end

