-- ==== Sys2Proof/Certificates/Slice0/Obligations.lean ====
section
/-! DEFINITION. The statements for the provers, in the order of spec/: encoding and the step, the registers and the device,
the acquisition controller, the decoder, the classifier, the calibration table, and the whole-machine rules. -/

open Sys2Proof Sys2Proof.Machine

/-! ## Encoding and the step -/

/-- Every operation with operands the spec gives a meaning to is read back from its encoding, at every operand and under
every legal configuration (R91, R92, R108). The descriptor's bytes and the widened offset are the model's (log 4).
It rests on decision D34. -/
def Obligations.DecodeOfEncodeIsIdentity : Prop :=
  ∀ (φ : Type) (p : Params φ) (i : Instr), p.Valid → i.wellFormed p = true → decode p (encode p i) = .ok i

/-- What decodes to an operation is that operation's one encoding (R113, D34). That every other form (superfluous or missing
bytes, a read with a data word) fails to decode is the model's choice (log 26), and so are the bytes of a widened descriptor
(log 4), of which the statement could be false under another packing. -/
def Obligations.EncodingIsUnique : Prop :=
  ∀ (φ : Type) (p : Params φ) (x : Presented) (i : Instr), p.Valid → decode p x = .ok i → encode p i = x

/-- A reserved selector is refused, whatever its operands, and never a no-op (R110).
It rests on decisions D34 and D36. -/
def Obligations.ReservedSelectorRefused : Prop :=
  ∀ (s : State) (op : Byte) (operand : Operand) (rest : List Event),
    s.agenda = .present (.cmd [op] operand) :: rest → op.toNat = 0 ∨ 9 ≤ op.toNat →
    step s = .refused (.rejected .reservedSelector)

/-- A transaction narrower or wider than 32 bits is refused (R68); a misaligned one is refused (R67); one at an unassigned
offset is refused (R74). The offset is any number; the data word stands with a write only (R91).
It rests on decisions D36 and D40. -/
def Obligations.ReservedTransactionRefused : Prop :=
  ∀ (s : State) (dir : Dir) (off width : Nat) (data : Option Word) (rest : List Event),
    s.agenda = .present (.reg (descriptorBytes (packDescriptor dir off)) width data) :: rest →
    (data.isSome = true ↔ dir = .wr) →
    (width ≠ 4 → step s = .refused (.rejected .width)) ∧
    (width = 4 → off % 4 ≠ 0 → step s = .refused (.rejected .misaligned)) ∧
    (width = 4 → off % 4 = 0 → off ≠ 0x0 → off ≠ 0x8 → off ≠ 0x10 →
      (∀ i, i < Config.params.bufDepth → off ≠ Config.params.sampleBase + 4 * i) →
      step s = .refused (.rejected .unassigned))

/-- Words of the opcode table decode to their rows' operations: the descriptors and selectors are those of R92 and R108
(D34). The form of 24 bits and the operands in these equations (data word 0, empty lists, zeros, the first layout, the empty
one-shot request) are the model's choice (log 4), since the table gives these rows no operand bits. -/
def Obligations.TableWordsDecode : Prop :=
  decodeTableWord 24 0x10000 = some (.wrTrigger 0) ∧ decodeTableWord 24 0x00000 = some .rdTrigger ∧
  decodeTableWord 24 0x00008 = some .rdBusy ∧ decodeTableWord 24 0x10008 = some (.wrBusy 0) ∧
  decodeTableWord 24 0x10010 = some (.wrDac 0) ∧ decodeTableWord 24 0x00010 = some .rdDac ∧
  decodeTableWord 8 0x01 = some (.acquire ⟨.oneShot, 0, none⟩) ∧ decodeTableWord 8 0x02 = some (.decode [] .genericDual) ∧
  decodeTableWord 8 0x03 = some (.encode ⟨[], []⟩ .genericDual) ∧ decodeTableWord 8 0x04 = some (.classifyHyst [] 0 0) ∧
  decodeTableWord 8 0x05 = some (.classifySkip [] 0 0) ∧ decodeTableWord 8 0x06 = some (.bucket 0) ∧
  decodeTableWord 8 0x07 = some (.lutRead 0) ∧ decodeTableWord 8 0x08 = some (.locate [] [])

/-- When the next move presents what decodes to `i`, the step is `exec i` on the state with that move taken off the agenda
and the last step's ports cleared (log 3, log 6); with what encodes a well-formed `i` that is so (R90). -/
def Obligations.StepRunsDecodedOperation : Prop :=
  ∀ (s : State) (x : Presented) (rest : List Event) (i : Instr),
    s.agenda = .present x :: rest → decode Config.params x = .ok i →
    step s = exec i { s with answer := .none, bus := none, agenda := rest }

/-! ## The registers and the device -/

/-- WR.TRIGGER completes unless it is a rising write while acquiring: the level becomes bit 0, a rise from 0 to 1 starts an
acquisition, bits 31:1 do nothing (R121, D5, D6). A rising write while acquiring is refused (R129, D11). -/
def Obligations.TriggerWriteStartsAcquisition : Prop :=
  ∀ (v : Word) (s : State),
    (¬ (v.getLsbD 0 = true ∧ s.v.trig = 0 ∧ s.v.acquiring = true) →
      exec (.wrTrigger v) s = .next { s with
        v := { s.v with
          trig := if v.getLsbD 0 then 1 else 0
          acquiring := if v.getLsbD 0 = true ∧ s.v.trig = 0 then true else s.v.acquiring }
        bus := some ⟨.wr, 0x0, v⟩ }) ∧
    (v.getLsbD 0 = true → s.v.trig = 0 → s.v.acquiring = true →
      exec (.wrTrigger v) s = .refused .strobeWhileAcquiring)

/-- RD.TRIGGER returns the level in bit 0 and changes nothing but the ports (R122). It rests on decision D6. -/
def Obligations.TriggerReadReturnsLevel : Prop :=
  ∀ (s : State), exec .rdTrigger s =
    .next { s with
      answer := .word (BitVec.ofNat 32 s.v.trig.toNat)
      bus := some ⟨.rd, 0x0, BitVec.ofNat 32 s.v.trig.toNat⟩ }

/-- RD.BUSY returns 0 when not acquiring, and some nonzero word while acquiring; it changes nothing but the ports and the
number of draws (R123). It rests on decision D8. -/
def Obligations.BusyReadTellsAcquiring : Prop :=
  ∀ (s : State),
    (s.v.acquiring = false → exec .rdBusy s = .next { s with answer := .word 0, bus := some ⟨.rd, 0x8, 0⟩ }) ∧
    (s.v.acquiring = true → ∃ w : Word, w ≠ 0 ∧
      exec .rdBusy s = .next { s with answer := .word w, bus := some ⟨.rd, 0x8, w⟩, draws := s.draws + 1 })

/-- WR.BUSY changes no state: it aborts nothing and forces nothing (R124). It rests on decision D8. -/
def Obligations.BusyWriteChangesNothing : Prop :=
  ∀ (v : Word) (s : State), exec (.wrBusy v) s = .next { s with bus := some ⟨.wr, 0x8, v⟩ }

/-- WR.DAC sets the level for a word in 1 to 65535 and silently keeps it for every other word (R125).
It rests on decision D9. -/
def Obligations.DacWriteSetsLegalLevel : Prop :=
  ∀ (v : Word) (s : State),
    (1 ≤ v.toNat ∧ v.toNat ≤ 65535 → exec (.wrDac v) s = .next { s with
      v := { s.v with dac := some (v.extractLsb' 0 16) }
      bus := some ⟨.wr, 0x10, v⟩ }) ∧
    (v.toNat = 0 ∨ 65535 < v.toNat → exec (.wrDac v) s = .next { s with bus := some ⟨.wr, 0x10, v⟩ })

/-- RD.SAMPLE of a cell of the buffer returns the cell when the device does not acquire and the cell was filled, else some
word (R127, D12). Nothing else changes, so the read consumes nothing (R70, D10; logs 17 and 21). Beyond the buffer it is
refused (R74, D36). -/
def Obligations.SampleReadReturnsCell : Prop :=
  ∀ (i : Nat) (s : State),
    (∀ w, i < Config.params.bufDepth → s.v.acquiring = false →
      s.v.buf.readWord (Config.params.sampleBase + 4 * i) = some w → exec (.rdSample i) s =
        .next { s with answer := .word w, bus := some ⟨.rd, Config.params.sampleBase + 4 * i, w⟩ }) ∧
    (i < Config.params.bufDepth →
      s.v.acquiring = true ∨ s.v.buf.readWord (Config.params.sampleBase + 4 * i) = none →
      ∃ w, exec (.rdSample i) s = .next { s with
        answer := .word w
        bus := some ⟨.rd, Config.params.sampleBase + 4 * i, w⟩
        draws := s.draws + 1 }) ∧
    (Config.params.bufDepth ≤ i → exec (.rdSample i) s = .refused (.rejected .unassigned))

/-- RD.DAC and WR.SAMPLE are refused in every state (R126, R128). It rests on decisions D9 and D36. -/
def Obligations.ReservedOperationsRefused : Prop :=
  ∀ (i : Nat) (v : Word) (s : State),
    exec .rdDac s = .refused .dacRead ∧ exec (.wrSample i v) s = .refused .sampleWrite

/-- The frame of the register transactions: no byte of memory, no field of the controller or the classifier, no waiting
request changes; only WR.TRIGGER changes the line and the acquiring flag, only WR.DAC the level (R120 to R128).
It rests on decisions D6, D8 and D9. -/
def Obligations.RegisterTransactionFrame : Prop :=
  ∀ (v : Word) (n : Nat) (i : Instr) (s t : State),
    i ∈ [.wrTrigger v, .rdTrigger, .rdBusy, .wrBusy v, .wrDac v, .rdSample n] → exec i s = .next t →
    (∀ a, t.v.buf.read a = s.v.buf.read a) ∧ t.c = s.c ∧ t.k = s.k ∧ t.waiting = s.waiting ∧ t.agenda = s.agenda ∧
    (i ≠ .wrTrigger v → t.v.trig = s.v.trig ∧ t.v.acquiring = s.v.acquiring) ∧ (i ≠ .wrDac v → t.v.dac = s.v.dac) ∧
    (∀ b, t.bus = some b → b.dir = .wr → t.answer = s.answer)

/-- Completion is enabled exactly while acquiring; it fills every cell with its own drawn word and clears the flag, in one
step, and leaves every other byte, the line, the level, the controller and the classifier (R131).
It rests on decision D10. -/
def Obligations.CompletionFillsBuffer : Prop :=
  ∀ (s : State) (rest : List Event), s.agenda = .move .completion :: rest →
    (s.v.acquiring = true → ∃ t, step s = .next t ∧ t.v.acquiring = false ∧
      (∀ i, i < Config.params.bufDepth →
        t.v.buf.readWord (Config.params.sampleBase + 4 * i) = some (Config.drawWord (s.draws + i))) ∧
      (∀ a, a < Config.params.sampleBase ∨ Config.params.sampleBase + 4 * Config.params.bufDepth ≤ a →
        t.v.buf.read a = s.v.buf.read a) ∧
      t.v.trig = s.v.trig ∧ t.v.dac = s.v.dac ∧ t.c = s.c ∧ t.k = s.k ∧ t.waiting = s.waiting ∧
      t.draws = s.draws + Config.params.bufDepth) ∧
    (s.v.acquiring = false → step s = .fault .notEnabled)

/-! ## The acquisition controller -/

/-- ACQUIRE in `Idle` with a request the buffer can hold is accepted with exactly the fields the rule lists written (R142,
D13), and beyond the buffer refused (D3); a result not taken is then gone (R158, R299, D15; log 30). That a presented request
is accepted at once even when others wait is the model's choice (log 7). Outside `Idle` it waits, neither accepted nor lost
(R157, D15). -/
def Obligations.AcquireAcceptedOrWaits : Prop :=
  ∀ (r : Request) (s : State),
    (s.c.st = .idle → r.wordCount ≤ Config.params.bufDepth → exec (.acquire r) s = .next { s with
      c := { s.c with
        req := r, seq := s.c.seq + 1, polls := 0, idx := 0, raw := [], result := .none, st := .triggering
        ph := if r.dacValue = none then .tHigh else .tDac } }) ∧
    (s.c.st = .idle → Config.params.bufDepth < r.wordCount → exec (.acquire r) s = .refused .wordCountBeyondBuffer) ∧
    (s.c.st ≠ .idle → exec (.acquire r) s = .next { s with waiting := s.waiting ++ [r] })

/-- Whichever waiting request is named next is the one accepted, in `Idle` only (R157, R142); one that the buffer cannot
hold is refused then, and where none waits or the controller is not `Idle` nothing can be accepted.
It rests on decisions D3, D13 and D15. -/
def Obligations.WaitingRequestAccepted : Prop :=
  ∀ (s : State) (n : Nat) (rest : List Event), s.agenda = .move (.accept n) :: rest →
    (∀ r, s.c.st = .idle → s.waiting[n]? = some r → r.wordCount ≤ Config.params.bufDepth → step s = .next { s with
      c := { s.c with
        req := r, seq := s.c.seq + 1, polls := 0, idx := 0, raw := [], result := .none, st := .triggering
        ph := if r.dacValue = none then .tHigh else .tDac }
      waiting := s.waiting.eraseIdx n, answer := .none, bus := none, agenda := rest }) ∧
    (∀ r, s.c.st = .idle → s.waiting[n]? = some r → Config.params.bufDepth < r.wordCount →
      step s = .refused .wordCountBeyondBuffer) ∧
    (s.c.st ≠ .idle ∨ s.waiting[n]? = none → step s = .fault .notEnabled)

/-- A step with an empty agenda, which is the model's choice of what goes on by itself (log 5): in `Idle` with no request
waiting the controller waits and only the ports are cleared (R280, R281); with one waiting, the first is accepted as R142
says, or refused beyond the buffer; in a session the step is the controller's. It rests on decisions D3, D13, D15 and D37. -/
def Obligations.UnattendedStep : Prop :=
  ∀ (s : State), s.agenda = [] →
    (s.c.st = .idle → s.waiting = [] → step s = .next { s with answer := .none, bus := none }) ∧
    (∀ r rs, s.c.st = .idle → s.waiting = r :: rs → r.wordCount ≤ Config.params.bufDepth → step s = .next { s with
      c := { s.c with
        req := r, seq := s.c.seq + 1, polls := 0, idx := 0, raw := [], result := .none, st := .triggering
        ph := if r.dacValue = none then .tHigh else .tDac }
      waiting := rs, answer := .none, bus := none }) ∧
    (∀ r rs, s.c.st = .idle → s.waiting = r :: rs → Config.params.bufDepth < r.wordCount →
      step s = .refused .wordCountBeyondBuffer) ∧
    (s.c.st ≠ .idle → step s = controllerStep Config.params { s with answer := .none, bus := none })

/-- Phase `T_DAC` (R143): the zero-extended level goes to 0x10; the register keeps its level on 0 and the session goes on.
It rests on decision D9. -/
def Obligations.DacPhaseWritesLevel : Prop :=
  ∀ (s : State) (d : Half) (rest : List Event), s.agenda = .move .controller :: rest →
    s.c.st = .triggering → s.c.ph = .tDac → s.c.req.dacValue = some d →
    step s = .next { s with
      v := { s.v with dac := if d = 0 then s.v.dac else some d }
      c := { s.c with ph := .tHigh }
      answer := .none, bus := some ⟨.wr, 0x10, d.setWidth 32⟩, agenda := rest }

/-- Phase `T_HIGH` (R144): the word 1 goes to TRIGGER whatever BUSY holds; from a low line the acquisition starts with it
(R121, decision D5), and if the device then still acquires the write is refused (R129, R293, decision D11); a line already high has no
edge. -/
def Obligations.HighPhaseStrobes : Prop :=
  ∀ (s : State) (rest : List Event), s.agenda = .move .controller :: rest →
    s.c.st = .triggering → s.c.ph = .tHigh →
    (¬ (s.v.trig = 0 ∧ s.v.acquiring = true) → step s = .next { s with
      v := { s.v with trig := 1, acquiring := if s.v.trig = 0 then true else s.v.acquiring }
      c := { s.c with ph := .tLow }
      answer := .none, bus := some ⟨.wr, 0x0, 1⟩, agenda := rest }) ∧
    (s.v.trig = 0 ∧ s.v.acquiring = true → step s = .refused .strobeWhileAcquiring)

/-- Phase `T_LOW` (R145): the word 0 goes to TRIGGER and the phase is `T_DIAG` (D7; log 31). A written 0 lowers the line and
the acquisition runs on (R121, D5, D6; logs 16 and 21). It rests on decisions D5, D6 and D7. -/
def Obligations.LowPhaseLowersLine : Prop :=
  ∀ (s : State) (rest : List Event), s.agenda = .move .controller :: rest →
    s.c.st = .triggering → s.c.ph = .tLow →
    step s = .next { s with
      v := { s.v with trig := 0 }
      c := { s.c with ph := .tDiag }
      answer := .none, bus := some ⟨.wr, 0x0, 0⟩, agenda := rest }

/-- Phase `T_DIAG` (R146): TRIGGER is read into `C.diag` and the session is in `Busy`, whatever was read.
It rests on decisions D6 and D7. -/
def Obligations.DiagPhaseEntersBusy : Prop :=
  ∀ (s : State) (rest : List Event), s.agenda = .move .controller :: rest →
    s.c.st = .triggering → s.c.ph = .tDiag →
    step s = .next { s with
      c := { s.c with diag := BitVec.ofNat 32 s.v.trig.toNat, st := .busy }
      answer := .none, bus := some ⟨.rd, 0x0, BitVec.ofNat 32 s.v.trig.toNat⟩, agenda := rest }

/-- A poll is a read of BUSY and is counted (R148; that the bound counts reads is decision D4, log 25); one that reads zero
leaves `Busy` for `Ready`, also when it is the `POLL_LIMIT`-th: the zero test comes first (R149). -/
def Obligations.ZeroPollEndsBusy : Prop :=
  ∀ (s : State) (rest : List Event), s.agenda = .move .controller :: rest → s.c.st = .busy → s.v.acquiring = false →
    step s = .next { s with
      c := { s.c with polls := s.c.polls + 1, st := .ready }
      answer := .none, bus := some ⟨.rd, 0x8, 0⟩, agenda := rest }

/-- A poll that reads a nonzero word is counted; one that is not the `POLL_LIMIT`-th stays in `Busy`; the `POLL_LIMIT`-th
raises `AcquisitionTimeout`: no block, no sample read, the words discarded, `Idle`, the device left as it is (R148, R150,
R252; that the bound counts reads is decision D4). -/
def Obligations.NonzeroPollCountsOrTimesOut : Prop :=
  ∀ (s : State) (rest : List Event), s.agenda = .move .controller :: rest → s.c.st = .busy → s.v.acquiring = true →
    ∃ w : Word, w ≠ 0 ∧ step s = .next { s with
      c :=
        if s.c.polls + 1 = Config.params.pollLimit then
          { s.c with
            polls := s.c.polls + 1, raw := [], result := .condition s.c.seq .acquisitionTimeout, st := .idle }
        else { s.c with polls := s.c.polls + 1 }
      answer := .none, bus := some ⟨.rd, 0x8, w⟩, agenda := rest, draws := s.draws + 1 }

/-- The sample read step (R152): the word read at base plus four times the index is appended, and the index advances; on a
device at rest with a filled cell it is the cell's word, and nothing else changes. -/
def Obligations.ReadyReadsNextSample : Prop :=
  ∀ (s : State) (rest : List Event), s.agenda = .move .controller :: rest →
    s.c.st = .ready → s.c.idx < s.c.req.wordCount → s.c.req.wordCount ≤ Config.params.bufDepth →
    ∃ (w : Word) (n : Nat), step s = .next { s with
        c := { s.c with raw := s.c.raw ++ [w], idx := s.c.idx + 1 }
        answer := .none, bus := some ⟨.rd, Config.params.sampleBase + 4 * s.c.idx, w⟩, agenda := rest
        draws := s.draws + n } ∧
      ∀ x, s.v.acquiring = false → s.v.buf.readWord (Config.params.sampleBase + 4 * s.c.idx) = some x → w = x ∧ n = 0

/-- Delivery (R154): all words read, the block decoded under LAYOUT leaves with the session's number; it has one sample of
each channel for each word (R52); the words are not kept. -/
def Obligations.ReadyDeliversBlock : Prop :=
  ∀ (s : State) (rest : List Event), s.agenda = .move .controller :: rest →
    s.c.st = .ready → s.c.idx = s.c.req.wordCount →
    ∃ b : ChannelBlock, exec (.decode s.c.raw Config.params.layout) s = .next { s with answer := .channels b } ∧
      b.channelA.length = s.c.raw.length ∧ b.channelB.length = s.c.raw.length ∧
      step s = .next { s with
        c := { s.c with result := .block s.c.seq b, raw := [], st := .idle }
        answer := .none, bus := none, agenda := rest }

/-- The host takes a result that is there, and it is then gone; there is nothing to take otherwise (R158).
It rests on decision D15. -/
def Obligations.TakingClearsResult : Prop :=
  ∀ (s : State) (rest : List Event), s.agenda = .move .take :: rest →
    (s.c.result ≠ .none → step s = .next { s with
      c := { s.c with result := .none }
      answer := .result s.c.result, bus := none, agenda := rest }) ∧
    (s.c.result = .none → step s = .fault .notEnabled)

/-- Every step, of any agent, keeps the invariant of the session, the result port and the buffer, from every state that
meets it (R51 to R53, R142 to R154). It rests on decisions D3, D4, D10 and D15. -/
def Obligations.StepKeepsInvariant : Prop :=
  ∀ (s t : State), s.Inv Config.params → step s = .next t → t.Inv Config.params

/-- With the host's duty kept (R269), every step keeps the handshake: after the strobe the device acquires or has filled the
buffer, and in `Ready` it is at rest with a whole buffer, so no sample of a session is an unconstrained word (R80, R291). It
rests on decisions D5 and D10. -/
def Obligations.StepKeepsHandshake : Prop :=
  ∀ (s t : State), s.Inv Config.params → s.Handshake Config.params → step s = .next t → t.Handshake Config.params

/-- After reset the invariant holds, whatever moves are to come, and the handshake for every list of moves in which the host
keeps its duty (R54, R269). It rests on decision D37. -/
def Obligations.GoodStateAtReset : Prop :=
  ∀ (moves : List Event), State.Inv Config.params { State.reset with agenda := moves } ∧
    ((∀ e ∈ moves, e.exclusive = true) → State.Handshake Config.params { State.reset with agenda := moves })

/-- Each controller step of a session brings its end nearer, so a session ends within the transactions of R156.
It rests on decisions D4 and D7. -/
def Obligations.SessionStepsDecrease : Prop :=
  ∀ (s t : State), s.Inv Config.params → s.c.st ≠ .idle → controllerStep Config.params s = .next t →
    t.c.stepsLeft Config.params < s.c.stepsLeft Config.params ∧
    s.c.stepsLeft Config.params ≤ 4 + Config.params.pollLimit + s.c.req.wordCount + 1

/-- In a session the controller is stopped by one thing only, a device that still acquires at its strobe (R144, R293): its
offsets are always assigned, and some step is always enabled (R66, R74). It rests on decision D11. -/
def Obligations.ControllerStopsOnlyAtStrobe : Prop :=
  ∀ (s : State), s.Inv Config.params → s.c.st ≠ .idle →
    (∃ t, controllerStep Config.params s = .next t) ∨
    (controllerStep Config.params s = .refused .strobeWhileAcquiring ∧ s.c.st = .triggering ∧ s.c.ph = .tHigh ∧
      s.v.acquiring = true)

/-- If the device never completes, a session in `Busy` that is left to itself (log 5: the agenda is empty) ends with
`AcquisitionTimeout` after the polls that are left, and the device still acquires (R132, R150, D4). Moves of the host between
the polls are left out. -/
def Obligations.NeverCompletingDeviceTimesOut : Prop :=
  ∀ (s : State), s.agenda = [] → s.c.st = .busy → s.v.acquiring = true → s.c.polls < Config.params.pollLimit →
    ∃ t, core.run (Config.params.pollLimit - s.c.polls) s = .next t ∧
      t.c.st = .idle ∧ t.c.result = .condition s.c.seq .acquisitionTimeout ∧ t.c.polls = Config.params.pollLimit ∧
      t.c.raw = [] ∧ t.v = s.v

/-- A whole session under one schedule (R140, R156): an accepted ACQUIRE on a device at rest, the controller's phases up to
and with the diagnostic read (D7; log 31), then the completion, before the first poll, and from there the session left to
itself (log 5) delivers, in `Idle`, the decode of the first `word_count` words the completion drew, with the next sequence
number. Freshness rests on decisions D40 and D5 (log 16) and D10 (log 17). A completion before the diagnostic read or after a
poll, and moves of the host in between, are left out. -/
def Obligations.SessionDeliversItsCapture : Prop :=
  ∀ (s : State) (r : Request), r.wordCount ≤ Config.params.bufDepth →
    s.c.st = .idle → s.v.trig = 0 → s.v.acquiring = false →
    s.agenda = .present (encode Config.params (.acquire r)) ::
      (List.replicate (if r.dacValue = none then 3 else 4) (.move .controller) ++ [.move .completion]) →
    ∃ t, core.run ((if r.dacValue = none then 5 else 6) + 1 + r.wordCount + 1) s = .next t ∧
      t.c.st = .idle ∧ t.c.seq = s.c.seq + 1 ∧ t.agenda = [] ∧ t.v.acquiring = false ∧
      t.c.result = .block (s.c.seq + 1)
        (decodeBlock ((List.range r.wordCount).map (fun i => Config.drawWord (s.draws + i))) Config.params.layout)

/-! ## The decoder -/

/-- DECODE completes on every block and layout; its channels have the block's length, and sample `i` of each is the signed
value of the half of word `i` that the layout gives it (R170, R171). It rests on decisions D16 and D17. -/
def Obligations.DecodeSplitsWords : Prop :=
  ∀ (raw : List Word) (l : Layout) (s : State), ∃ b : ChannelBlock,
    exec (.decode raw l) s = .next { s with answer := .channels b } ∧
    b.channelA.length = raw.length ∧ b.channelB.length = raw.length ∧
    ∀ (i : Nat) (w : Word), raw[i]? = some w →
      ∃ x y : S16, b.channelA[i]? = some x ∧ b.channelB[i]? = some y ∧
        (l = .genericDual → x.val = (w.extractLsb' 0 16).toInt ∧ y.val = (w.extractLsb' 16 16).toInt) ∧
        (l = .signalTrigger → x.val = (w.extractLsb' 16 16).toInt ∧ y.val = (w.extractLsb' 0 16).toInt)

/-- ENCODE completes on channels of one length and is refused otherwise; word `i` holds the two samples `i` in the halves
the layout gives them, each as its two's complement half (R174). It rests on decisions D16 and D17. -/
def Obligations.EncodeJoinsSamples : Prop :=
  ∀ (b : ChannelBlock) (l : Layout) (s : State),
    (b.channelA.length = b.channelB.length → ∃ raw : List Word,
      exec (.encode b l) s = .next { s with answer := .rawBlock raw } ∧ raw.length = b.channelA.length ∧
      ∀ (i : Nat) (x y : S16), b.channelA[i]? = some x → b.channelB[i]? = some y →
        (l = .genericDual → raw[i]? = some (BitVec.ofInt 16 y.val ++ BitVec.ofInt 16 x.val)) ∧
        (l = .signalTrigger → raw[i]? = some (BitVec.ofInt 16 x.val ++ BitVec.ofInt 16 y.val))) ∧
    (b.channelA.length ≠ b.channelB.length → exec (.encode b l) s = .refused .unequalLengths)

/-- ENCODE of what DECODE gave returns the words, under each layout (R175). -/
def Obligations.EncodeInvertsDecode : Prop :=
  ∀ (raw : List Word) (l : Layout) (s : State), ∃ b t,
    exec (.decode raw l) s = .next t ∧ t.answer = .channels b ∧
    exec (.encode b l) t = .next { t with answer := .rawBlock raw }

/-- DECODE of what ENCODE gave returns the block, under each layout (R176). It rests on decision D17. -/
def Obligations.DecodeInvertsEncode : Prop :=
  ∀ (b : ChannelBlock) (l : Layout) (s : State), b.channelA.length = b.channelB.length → ∃ raw t,
    exec (.encode b l) s = .next t ∧ t.answer = .rawBlock raw ∧
    exec (.decode raw l) t = .next { t with answer := .channels b }

/-! ## The classifier -/

/-- One sample in hysteresis mode (R190): onset when outside a spike and strictly above the onset threshold; inside, first
the close test, then the peak test; the sample that closes changes neither peak nor onset (R191).
It rests on decisions D18 and D20. -/
def Obligations.HysteresisSampleRule : Prop :=
  ∀ (e : BandEdges) (on off : Nat) (x : S16) (k : Classifier),
    (k.inSpike = false → x.val.natAbs ≤ on → hystSample e on off x k = k) ∧
    (k.inSpike = false → on < x.val.natAbs → hystSample e on off x k =
      { k with inSpike := true, onsetIdx := k.i, peakIdx := k.i, peakVal := x }) ∧
    (k.inSpike = true → x.val.natAbs ≤ off → hystSample e on off x k = { k with
      inSpike := false
      events := k.events ++ [⟨k.onsetIdx, k.peakIdx, k.peakVal, bucketOf e k.peakVal.val.natAbs⟩] }) ∧
    (k.inSpike = true → off < x.val.natAbs → k.peakVal.val.natAbs < x.val.natAbs →
      hystSample e on off x k = { k with peakIdx := k.i, peakVal := x }) ∧
    (k.inSpike = true → off < x.val.natAbs → x.val.natAbs ≤ k.peakVal.val.natAbs → hystSample e on off x k = k)

/-- CLASSIFY.HYST completes on every operand: `K` is started, the run takes the samples in order, each by the rule of
`hystSample` (HysteresisSampleRule) before `K.i` advances, and its events are the answer; they do not depend on what `K` held
before (R189, R190, D20). That the run is one step, and that `K` stays as its last sample left it where R194 drops it, is the
model's choice (log 24). -/
def Obligations.ClassifyHystCompletes : Prop :=
  ∀ (xs : List S16) (on off : Nat) (s : State),
    exec (.classifyHyst xs on off) s = .next { s with
      k := hystRun Config.params.bandEdge on off { s.k with i := 0, inSpike := false, events := [] } xs
      answer := .events
        (hystRun Config.params.bandEdge on off { s.k with i := 0, inSpike := false, events := [] } xs).events } ∧
    (∀ (e : BandEdges) (k : Classifier) (x : S16),
      hystRun e on off k [] = k ∧
      hystRun e on off k (xs ++ [x]) =
        { hystSample e on off x (hystRun e on off k xs) with i := (hystSample e on off x (hystRun e on off k xs)).i + 1 }) ∧
    ∀ k : Classifier,
      (hystRun Config.params.bandEdge on off { k with i := 0, inSpike := false, events := [] } xs).events =
      (hystRun Config.params.bandEdge on off { s.k with i := 0, inSpike := false, events := [] } xs).events

/-- One sample in skip-window mode (R195, D18, D20, D21): outside a spike nothing or an onset, which counts 1; inside, the
peak test and the count; then, when the count has reached `dead_samples`, the close, with the peak of the whole window. A
sample outside a spike that is no onset changes nothing, whatever the count. -/
def Obligations.SkipSampleRule : Prop :=
  ∀ (e : BandEdges) (on dead : Nat) (x : S16) (k : Classifier),
    (k.inSpike = false → x.val.natAbs ≤ on → skipSample e on dead x k = k) ∧
    (k.inSpike = false → on < x.val.natAbs → dead ≠ 1 → skipSample e on dead x k =
      { k with inSpike := true, onsetIdx := k.i, peakIdx := k.i, peakVal := x, cnt := 1 }) ∧
    (k.inSpike = false → on < x.val.natAbs → dead = 1 → skipSample e on dead x k = { k with
      onsetIdx := k.i, peakIdx := k.i, peakVal := x, cnt := 1
      events := k.events ++ [⟨k.i, k.i, x, bucketOf e x.val.natAbs⟩] }) ∧
    ∀ (pi : Nat) (pv : S16),
      (k.peakVal.val.natAbs < x.val.natAbs ∧ pi = k.i ∧ pv = x ∨
        x.val.natAbs ≤ k.peakVal.val.natAbs ∧ pi = k.peakIdx ∧ pv = k.peakVal) →
      (k.inSpike = true → k.cnt + 1 ≠ dead → skipSample e on dead x k =
        { k with peakIdx := pi, peakVal := pv, cnt := k.cnt + 1 }) ∧
      (k.inSpike = true → k.cnt + 1 = dead → skipSample e on dead x k = { k with
        inSpike := false, peakIdx := pi, peakVal := pv, cnt := k.cnt + 1
        events := k.events ++ [⟨k.onsetIdx, pi, pv, bucketOf e pv.val.natAbs⟩] })

/-- CLASSIFY.SKIP completes for `dead_samples ≥ 1` and is refused for 0: `K` is started, the run takes the samples in order,
each by the rule of `skipSample` (SkipSampleRule) before `K.i` advances, and its events are the answer; they do not depend on
what `K` held before (R189, R195, D21). That the run is one step, and that `K` stays as its last sample left it where R194
drops it, is the model's choice (log 24). -/
def Obligations.ClassifySkipCompletes : Prop :=
  ∀ (xs : List S16) (on dead : Nat) (s : State),
    (1 ≤ dead → exec (.classifySkip xs on dead) s = .next { s with
      k := skipRun Config.params.bandEdge on dead { s.k with i := 0, inSpike := false, events := [] } xs
      answer := .events
        (skipRun Config.params.bandEdge on dead { s.k with i := 0, inSpike := false, events := [] } xs).events }) ∧
    (dead = 0 → exec (.classifySkip xs on dead) s = .refused .zeroDeadSamples) ∧
    (∀ (e : BandEdges) (k : Classifier) (x : S16),
      skipRun e on dead k [] = k ∧
      skipRun e on dead k (xs ++ [x]) =
        { skipSample e on dead x (skipRun e on dead k xs) with
          i := (skipSample e on dead x (skipRun e on dead k xs)).i + 1 }) ∧
    ∀ k : Classifier,
      (skipRun Config.params.bandEdge on dead { k with i := 0, inSpike := false, events := [] } xs).events =
      (skipRun Config.params.bandEdge on dead { s.k with i := 0, inSpike := false, events := [] } xs).events

/-- The events of a hysteresis run (R202): each has a closing sample at or below the offset threshold; from its onset, which
is above the onset threshold, to before the close no sample exceeds the peak, those after the onset are above the offset
threshold, and those before the peak are below the peak; it carries the sample at its peak and its band; and each closes
before the next begins. It rests on decisions D18, D20 and D22. -/
def Obligations.HysteresisEventsAreSpikes : Prop :=
  ∀ (e : BandEdges) (on off : Nat) (k : Classifier) (xs : List S16), ∃ close : Nat → Nat,
    (∀ v ∈ (hystRun e on off k.start xs).events,
      v.onsetIndex ≤ v.peakIndex ∧ v.peakIndex < close v.onsetIndex ∧
      xs[v.peakIndex]? = some v.peakHeight ∧ on < v.peakHeight.val.natAbs ∧
      (∀ x, xs[v.onsetIndex]? = some x → on < x.val.natAbs) ∧
      (∃ x, xs[close v.onsetIndex]? = some x ∧ x.val.natAbs ≤ off) ∧
      (∀ j x, v.onsetIndex ≤ j → j < close v.onsetIndex → xs[j]? = some x →
        x.val.natAbs ≤ v.peakHeight.val.natAbs ∧ (j < v.peakIndex → x.val.natAbs < v.peakHeight.val.natAbs) ∧
        (v.onsetIndex < j → off < x.val.natAbs)) ∧
      v.bucket = bucketOf e v.peakHeight.val.natAbs) ∧
    (hystRun e on off k.start xs).events.Pairwise (fun v u => close v.onsetIndex < u.onsetIndex)

/-- The events of a skip-window run (R196 to R198, R202): each window of `dead_samples` samples lies inside the list and
before the next onset; the peak is the first sample of greatest magnitude in the whole window, of equals the earliest (D20;
log 22). It rests on decisions D18, D20, D21 and D22; that a window that fits gives its event is SkipSampleRule's. -/
def Obligations.SkipEventsAreWindows : Prop :=
  ∀ (e : BandEdges) (on dead : Nat) (k : Classifier) (xs : List S16), 1 ≤ dead →
    (∀ v ∈ (skipRun e on dead k.start xs).events,
      v.onsetIndex ≤ v.peakIndex ∧ v.peakIndex < v.onsetIndex + dead ∧ v.onsetIndex + dead ≤ xs.length ∧
      xs[v.peakIndex]? = some v.peakHeight ∧ on < v.peakHeight.val.natAbs ∧
      (∀ x, xs[v.onsetIndex]? = some x → on < x.val.natAbs) ∧
      (∀ j x, v.onsetIndex ≤ j → j < v.onsetIndex + dead → xs[j]? = some x →
        x.val.natAbs ≤ v.peakHeight.val.natAbs ∧ (j < v.peakIndex → x.val.natAbs < v.peakHeight.val.natAbs)) ∧
      v.bucket = bucketOf e v.peakHeight.val.natAbs) ∧
    (skipRun e on dead k.start xs).events.Pairwise (fun v u => v.onsetIndex + dead ≤ u.onsetIndex)

/-- BUCKET completes on every magnitude; its answer `k` is the number of the band that holds it: edges 0 to `k - 1` are at
or below the magnitude and the others above it (R103, R200). It rests on decision D23. -/
def Obligations.BucketIsTheBand : Prop :=
  ∀ (m : Nat) (s : State), ∃ k : Fin 7,
    exec (.bucket m) s = .next { s with answer := .bucket k } ∧
    ∀ (j e : Nat), Config.params.bandEdge.toList[j]? = some e → (j < k.val ↔ e ≤ m)

/-! ## The calibration table -/

/-- LUT.READ returns the entry for an index inside the table and is refused outside it (R216).
It rests on decision D24. -/
def Obligations.LutReadReturnsEntry : Prop :=
  ∀ (k : Nat) (s : State),
    (∀ x, Config.params.cal[k]? = some x → exec (.lutRead k) s = .next { s with answer := .phys x }) ∧
    (Config.params.cal.length ≤ k → exec (.lutRead k) s = .refused .indexOutsideTable)

/-- The edge index is the smallest index whose first difference exceeds the threshold, and there is none when no index does
(R217). It rests on decisions D18 and D25. -/
def Obligations.EdgeIndexIsFirstEdge : Prop :=
  ∀ (threshold : Int) (ts : List S16),
    (∀ e, edgeIndex threshold ts = some e ↔
      (∃ a b, ts[e]? = some a ∧ ts[e + 1]? = some b ∧ threshold < b.val - a.val) ∧
      ∀ j a b, j < e → ts[j]? = some a → ts[j + 1]? = some b → b.val - a.val ≤ threshold)

/-- The peaks of a signal are exactly its local maxima above the height threshold, each with its height, in ascending
index (R218). It rests on decision D27. -/
def Obligations.PeaksAreLocalMaxima : Prop :=
  ∀ (height : Int) (xs : List S16),
    (∀ i x, (i, x) ∈ peaks height xs ↔ 1 ≤ i ∧ xs[i]? = some x ∧ height < x.val ∧
      (∃ a, xs[i - 1]? = some a ∧ a.val < x.val) ∧ (∃ c, xs[i + 1]? = some c ∧ c.val < x.val)) ∧
    ((peaks height xs).map (·.1)).Pairwise (· < ·)

/-- LOCATE completes on lists of one length and is refused on others; the answer is valid exactly when there is an edge, two
maxima and no more lie inside the windows, the second re-based index is below the bound and both indices are in the table;
then it carries the two entries, and else the null pair; the peaks are always reported, and the windows when there is an
edge (R220, R224 to R228). That nothing else makes it invalid rests on the consistency check having no effect (R223, D29;
log 15). It rests on decisions D24 to D32. -/
def Obligations.LocateFindsTwoCandidates : Prop :=
  ∀ (sig trg : List S16) (s : State),
    (sig.length ≠ trg.length → exec (.locate sig trg) s = .refused .unequalLengths) ∧
    (sig.length = trg.length → ∃ r : LocateResult Phys, exec (.locate sig trg) s = .next { s with answer := .located r } ∧
      r.peakIndices = (peaks Config.params.heightThreshold sig).map (·.1) ∧
      r.peakHeights = (peaks Config.params.heightThreshold sig).map (·.2) ∧
      r.window = (edgeIndex Config.params.edgeThreshold trg).map (windowsAfter Config.params.winHalf) ∧
      (r.valid = false → r.wavelengths = (Config.params.physZero, Config.params.physZero)) ∧
      ∀ x y, r.valid = true ∧ r.wavelengths = (x, y) ↔
        ∃ e c1 c2, edgeIndex Config.params.edgeThreshold trg = some e ∧
          r.peakIndices.filter (insideWindows (windowsAfter Config.params.winHalf e)) = [c1, c2] ∧
          (c2 : Int) - e < Config.params.indexBound ∧
          (Config.params.lutIndexMode = .raw →
            Config.params.cal[c1]? = some x ∧ Config.params.cal[c2]? = some y) ∧
          (Config.params.lutIndexMode = .rebased →
            Config.params.cal[((c1 : Int) - e).toNat]? = some x ∧ Config.params.cal[((c2 : Int) - e).toNat]? = some y))

/-- The windows after an edge are centred at +650 and +1250, with both ends; they do not overlap, and a candidate lies after
the edge, so its re-based index is positive (R219, R222). It rests on decisions D25 and D26. -/
def Obligations.WindowsFollowTheEdge : Prop :=
  ∀ (φ : Type) (p : Params φ) (e i : Nat), p.Valid →
    (insideWindows (windowsAfter p.winHalf e) i = true ↔
      (e + 650 ≤ i + p.winHalf ∧ i ≤ e + 650 + p.winHalf) ∨ (e + 1250 ≤ i + p.winHalf ∧ i ≤ e + 1250 + p.winHalf)) ∧
    ¬ ((e + 650 ≤ i + p.winHalf ∧ i ≤ e + 650 + p.winHalf) ∧ (e + 1250 ≤ i + p.winHalf ∧ i ≤ e + 1250 + p.winHalf)) ∧
    (insideWindows (windowsAfter p.winHalf e) i = true → 0 < (i : Int) - e)

/-- The frame of the pure operations (R204, R230, R270): they write the answer port, the classify operations `K` too, and
nothing else; and they read no state: from every other state the operation answers the same. -/
def Obligations.PureOperationFrame : Prop :=
  ∀ (i : Instr) (s t : State) (raw : List Word) (b : ChannelBlock) (l : Layout) (xs ys : List S16) (m n : Nat),
    i ∈ [.decode raw l, .encode b l, .classifyHyst xs m n, .classifySkip xs m n, .bucket m, .lutRead m, .locate xs ys] →
    exec i s = .next t →
    (∀ a, t.v.buf.read a = s.v.buf.read a) ∧ t.v = s.v ∧ t.c = s.c ∧ t.waiting = s.waiting ∧ t.bus = s.bus ∧
    t.agenda = s.agenda ∧ t.draws = s.draws ∧
    (i ≠ .classifyHyst xs m n → i ≠ .classifySkip xs m n → t.k = s.k) ∧
    ∀ u : State, ∃ w, exec i u = .next w ∧ w.answer = t.answer

/-! ## Whole-machine rules -/

/-- The frame of ACQUIRE: only the controller's state or the waiting requests change; no byte of memory, no register, no
classifier state, no draw (R142, R157). It rests on decision D15. -/
def Obligations.AcquireFrame : Prop :=
  ∀ (r : Request) (s t : State), exec (.acquire r) s = .next t →
    (∀ a, t.v.buf.read a = s.v.buf.read a) ∧ t.v = s.v ∧ t.k = s.k ∧ t.bus = s.bus ∧ t.answer = s.answer ∧
    t.agenda = s.agenda ∧ t.draws = s.draws ∧ t.c.diag = s.c.diag ∧
    (t.c = s.c ∨ t.waiting = s.waiting)

/-- The session state changes only along the transition table, each edge with its event (R141), but for the resets (log 13):
the request latched on the edge from `Idle` was presented in that very step, or was waiting and waits no more (R142, R157,
D3, D15); and when a controller step, named or of a session left to itself (log 5), stays in `Busy` or `Ready`, it has made
that row's read. -/
def Obligations.TransitionTable : Prop :=
  ∀ (s t : State), step s = .next t →
    (t.c.st ≠ s.c.st →
      (∃ rest, s.agenda = .move .systemReset :: rest ∨ s.agenda = .move .controllerReset :: rest) ∨
      (s.c.st = .idle ∧ t.c.st = .triggering ∧ t.c.req.wordCount ≤ Config.params.bufDepth ∧
        t.c.ph = (if t.c.req.dacValue = none then .tHigh else .tDac) ∧
        ((∃ x rest, s.agenda = .present x :: rest ∧ decode Config.params x = .ok (.acquire t.c.req) ∧
            t.waiting = s.waiting) ∨
          ∃ n, (s.agenda = [] ∨ ∃ rest, s.agenda = .move (.accept n) :: rest) ∧
            s.waiting[n]? = some t.c.req ∧ t.waiting = s.waiting.eraseIdx n)) ∨
      (s.c.st = .triggering ∧ t.c.st = .busy ∧ s.c.ph = .tDiag ∧ t.bus = some ⟨.rd, 0x0, t.c.diag⟩) ∨
      (s.c.st = .busy ∧ t.c.st = .ready ∧ t.bus = some ⟨.rd, 0x8, 0⟩) ∨
      (s.c.st = .busy ∧ t.c.st = .idle ∧ t.c.polls = Config.params.pollLimit ∧
        (∃ w : Word, w ≠ 0 ∧ t.bus = some ⟨.rd, 0x8, w⟩) ∧ t.c.result = .condition s.c.seq .acquisitionTimeout) ∨
      (s.c.st = .ready ∧ t.c.st = .idle ∧ s.c.idx = s.c.req.wordCount ∧ ∃ b, t.c.result = .block s.c.seq b)) ∧
    ((s.agenda = [] ∨ ∃ rest, s.agenda = .move .controller :: rest) → t.c.st = s.c.st →
      (s.c.st = .busy → (∃ w : Word, w ≠ 0 ∧ t.bus = some ⟨.rd, 0x8, w⟩) ∧ t.c.polls = s.c.polls + 1 ∧
        (s.Inv Config.params → t.c.polls < Config.params.pollLimit)) ∧
      (s.c.st = .ready → s.c.idx < s.c.req.wordCount ∧ t.c.idx = s.c.idx + 1 ∧
        ∃ w, t.bus = some ⟨.rd, Config.params.sampleBase + 4 * s.c.idx, w⟩))

/-- The sequence number advances by one at each acceptance and changes at no other step but a reset (R36).
It rests on decision D13. -/
def Obligations.SequenceNumberAdvancesAtAcceptance : Prop :=
  ∀ (s t : State), step s = .next t →
    (∀ rest, s.agenda ≠ .move .systemReset :: rest ∧ s.agenda ≠ .move .controllerReset :: rest) →
    (s.c.st = .idle ∧ t.c.st = .triggering ∧ t.c.seq = s.c.seq + 1) ∨
    (¬ (s.c.st = .idle ∧ t.c.st = .triggering) ∧ t.c.seq = s.c.seq)

/-- No partial block (R53): a result appears on the port only at the end of a session, from `Ready` with all words read and
decoded (R154), or from `Busy` with the timeout and no data, at a nonzero poll that is the `POLL_LIMIT`-th (R150; that the
bound counts reads is decision D4, log 25). -/
def Obligations.ResultAppearsAtSessionEnd : Prop :=
  ∀ (s t : State), step s = .next t → t.c.result ≠ s.c.result → t.c.result ≠ .none →
    t.c.st = .idle ∧
    ((s.c.st = .ready ∧ s.c.idx = s.c.req.wordCount ∧
        (s.Inv Config.params → s.c.raw.length = s.c.req.wordCount) ∧
        t.c.result = .block s.c.seq (decodeBlock s.c.raw Config.params.layout)) ∨
     (s.c.st = .busy ∧ s.c.polls + 1 = Config.params.pollLimit ∧ s.v.acquiring = true ∧
        t.c.result = .condition s.c.seq .acquisitionTimeout))

/-- No step but completion, and the reset of the whole system, changes a byte of the sample buffer (R25, R133).
It rests on decision D10. -/
def Obligations.BufferChangesOnlyByCompletion : Prop :=
  ∀ (s t : State) (a : Nat), step s = .next t → t.v.buf.read a ≠ s.v.buf.read a →
    ∃ rest, (s.agenda = .move .completion :: rest ∧ s.v.acquiring = true) ∨ s.agenda = .move .systemReset :: rest

/-- The output level changes only by a legal write to 0x10 on the bus, and becomes that word's low half, but for the reset
of the whole system (R28, R125). It rests on decision D9. -/
def Obligations.DacLevelChangesOnlyByLegalWrite : Prop :=
  ∀ (s t : State), step s = .next t → t.v.dac ≠ s.v.dac →
    (∃ rest, s.agenda = .move .systemReset :: rest) ∨
    ∃ w : Word, t.bus = some ⟨.wr, 0x10, w⟩ ∧ 1 ≤ w.toNat ∧ w.toNat ≤ 65535 ∧ t.v.dac = some (w.extractLsb' 0 16)

/-- The device starts to acquire only by a write to TRIGGER with bit 0 set that raises the line, seen on the bus, and
stops only by completion, but for the reset of the whole system (R27, R121, R131).
It rests on decisions D5 and D10. -/
def Obligations.AcquiringFollowsStrobeAndCompletion : Prop :=
  ∀ (s t : State), step s = .next t →
    (s.v.acquiring = false → t.v.acquiring = true →
      s.v.trig = 0 ∧ t.v.trig = 1 ∧ ∃ w : Word, t.bus = some ⟨.wr, 0x0, w⟩ ∧ w.getLsbD 0 = true) ∧
    (s.v.acquiring = true → t.v.acquiring = false →
      ∃ rest, s.agenda = .move .completion :: rest ∨ s.agenda = .move .systemReset :: rest)

/-- The values the spec gives at reset (R54): those of `C` and `V`, but for `C.req`, which it leaves unspecified.
It rests on decision D37. -/
def Obligations.ResetValues : Prop :=
  State.reset.c.st = .idle ∧ State.reset.c.ph = .tDac ∧ State.reset.c.polls = 0 ∧ State.reset.c.idx = 0 ∧
  State.reset.c.raw = [] ∧ State.reset.c.seq = 0 ∧ State.reset.c.diag = 0 ∧ State.reset.c.result = .none ∧
  State.reset.v.trig = 0 ∧ State.reset.v.acquiring = false ∧ State.reset.v.dac = none ∧
  ∀ i, State.reset.v.buf.readWord (Config.params.sampleBase + 4 * i) = none

/-- A reset of the whole system gives the state after reset, with the moves to come and the draws made kept (R280, log 13);
one of the controller alone ends in `Idle` and leaves the device as it was (R282), and then no result is on the port, which is
the model's own reading of a reset that R282 says no more about (log 13). It rests on decision D37. -/
def Obligations.ResetMoves : Prop :=
  ∀ (s : State) (rest : List Event),
    (s.agenda = .move .systemReset :: rest → step s = .next { State.reset with agenda := rest, draws := s.draws }) ∧
    (s.agenda = .move .controllerReset :: rest → ∃ t, step s = .next t ∧ t.c.st = .idle ∧ t.c.result = .none ∧ t.v = s.v)
end

