-- ==== Sys2Proof/Laws/Config.lean ====
section
/-! SUPPORT. The configuration meets its constraints; no legal configuration and no type of physical values is lost by the
way they are chosen. -/

namespace Sys2Proof.Laws.Config

theorem ofChoice_valid {φ : Type} (c : Config.Choice φ) : (Params.ofChoice c).Valid where
  base_aligned := by simp [Params.ofChoice]
  base_above := by simp only [Params.ofChoice]; omega
  depth_pos := by simp [Params.ofChoice]
  limit_pos := by simp [Params.ofChoice]
  edges_sorted := by simp [Params.ofChoice, BandEdges.toList]; omega
  cal_pos := by simp [Params.ofChoice]
  half_low := by simp [Params.ofChoice]
  half_high := by simp only [Params.ofChoice]; omega

/-- Every legal configuration comes from a choice. -/
theorem ofChoice_surjective {φ : Type} (p : Params φ) (h : p.Valid) : ∃ c, Params.ofChoice c = p := by
  obtain ⟨base, depth, limit, layout, ⟨e0, e1, e2, e3, e4, e5⟩, zero, cal, edge, half, height, bound, mode⟩ := p
  obtain ⟨h1, h2, h3, h4, h5, h6, h7, h8⟩ := h
  simp only [BandEdges.toList, List.pairwise_cons, List.mem_cons, List.not_mem_nil, or_false, forall_eq_or_imp,
    forall_eq] at h1 h2 h3 h4 h5 h6 h7 h8
  obtain ⟨first, rest, rfl⟩ : ∃ x xs, cal = x :: xs := by
    cases cal with
    | nil => simp at h6
    | cons x xs => exact ⟨x, xs, rfl⟩
  refine ⟨⟨base / 4 - 5, depth - 1, limit - 1, layout, e0, e1 - e0, e2 - e1, e3 - e2, e4 - e3, e5 - e4, zero, first, rest,
    edge, half - 50, height, bound, mode⟩, ?_⟩
  simp only [Params.ofChoice, Params.mk.injEq, BandEdges.mk.injEq, true_and, and_true]
  omega

/-- Every nonempty type whose values can be told apart by numbers is, up to the names of its values, a `PhysOf` (log 14). -/
theorem physOf_general {φ : Type} (z : φ) (number : φ → Nat) (hn : ∀ a b, number a = number b → a = b) :
    ∃ (others : Nat → Bool) (name : φ → PhysOf others), (∀ a b, name a = name b → a = b) ∧ ∀ y, ∃ x, name x = y := by
  classical
  refine ⟨fun n => decide (∃ x, x ≠ z ∧ number x = n), fun x => if h : x = z then none
    else some ⟨number x, decide_eq_true ⟨x, h, rfl⟩⟩, fun a b h => ?_, fun y => ?_⟩
  · by_cases ha : a = z <;> by_cases hb : b = z <;> simp only [ha, hb, dif_pos, dif_neg, not_false_eq_true] at h ⊢
    · cases h
    · cases h
    · simp only [Option.some.injEq, Subtype.mk.injEq] at h
      exact hn a b h
  · cases y with
    | none => exact ⟨z, dif_pos rfl⟩
    | some y =>
      obtain ⟨n, h⟩ := y
      obtain ⟨x, hx, rfl⟩ := of_decide_eq_true h
      exact ⟨x, dif_neg hx⟩

theorem params_valid : Config.params.Valid := ofChoice_valid _

/-- A `draw_nonzero` is not 0 (R18). -/
theorem drawNonzero_ne_zero (n : Nat) : Config.drawNonzero n ≠ 0 := by
  intro h
  have h' := congrArg BitVec.toNat h
  simp only [Config.drawNonzero, BitVec.toNat_ofNat, Nat.reducePow] at h'
  have : Config.drawBusy n % 0xFFFFFFFF < 0xFFFFFFFF := Nat.mod_lt _ (by decide)
  rw [Nat.mod_eq_of_lt (by omega)] at h'
  simp at h'

end Sys2Proof.Laws.Config
end

