-- ==== Sys2Proof/Laws/State.lean ====
section
/-! SUPPORT. One lemma for each field of the state and each named update, so that no later proof unfolds a record update. -/

namespace Sys2Proof.Machine

@[simp] theorem State.withV_v (s : State) (x : Device) : (s.withV x).v = x := rfl
@[simp] theorem State.withV_c (s : State) (x : Device) : (s.withV x).c = s.c := rfl
@[simp] theorem State.withV_k (s : State) (x : Device) : (s.withV x).k = s.k := rfl
@[simp] theorem State.withV_waiting (s : State) (x : Device) : (s.withV x).waiting = s.waiting := rfl
@[simp] theorem State.withV_answer (s : State) (x : Device) : (s.withV x).answer = s.answer := rfl
@[simp] theorem State.withV_bus (s : State) (x : Device) : (s.withV x).bus = s.bus := rfl
@[simp] theorem State.withV_agenda (s : State) (x : Device) : (s.withV x).agenda = s.agenda := rfl
@[simp] theorem State.withV_draws (s : State) (x : Device) : (s.withV x).draws = s.draws := rfl

@[simp] theorem State.withC_v (s : State) (x : Controller) : (s.withC x).v = s.v := rfl
@[simp] theorem State.withC_c (s : State) (x : Controller) : (s.withC x).c = x := rfl
@[simp] theorem State.withC_k (s : State) (x : Controller) : (s.withC x).k = s.k := rfl
@[simp] theorem State.withC_waiting (s : State) (x : Controller) : (s.withC x).waiting = s.waiting := rfl
@[simp] theorem State.withC_answer (s : State) (x : Controller) : (s.withC x).answer = s.answer := rfl
@[simp] theorem State.withC_bus (s : State) (x : Controller) : (s.withC x).bus = s.bus := rfl
@[simp] theorem State.withC_agenda (s : State) (x : Controller) : (s.withC x).agenda = s.agenda := rfl
@[simp] theorem State.withC_draws (s : State) (x : Controller) : (s.withC x).draws = s.draws := rfl

@[simp] theorem State.withK_v (s : State) (x : Classifier) : (s.withK x).v = s.v := rfl
@[simp] theorem State.withK_c (s : State) (x : Classifier) : (s.withK x).c = s.c := rfl
@[simp] theorem State.withK_k (s : State) (x : Classifier) : (s.withK x).k = x := rfl
@[simp] theorem State.withK_waiting (s : State) (x : Classifier) : (s.withK x).waiting = s.waiting := rfl
@[simp] theorem State.withK_answer (s : State) (x : Classifier) : (s.withK x).answer = s.answer := rfl
@[simp] theorem State.withK_bus (s : State) (x : Classifier) : (s.withK x).bus = s.bus := rfl
@[simp] theorem State.withK_agenda (s : State) (x : Classifier) : (s.withK x).agenda = s.agenda := rfl
@[simp] theorem State.withK_draws (s : State) (x : Classifier) : (s.withK x).draws = s.draws := rfl

@[simp] theorem State.onBus_v (s : State) (d : Dir) (o : Nat) (w : Word) : (s.onBus d o w).v = s.v := rfl
@[simp] theorem State.onBus_c (s : State) (d : Dir) (o : Nat) (w : Word) : (s.onBus d o w).c = s.c := rfl
@[simp] theorem State.onBus_k (s : State) (d : Dir) (o : Nat) (w : Word) : (s.onBus d o w).k = s.k := rfl
@[simp] theorem State.onBus_waiting (s : State) (d : Dir) (o : Nat) (w : Word) : (s.onBus d o w).waiting = s.waiting := rfl
@[simp] theorem State.onBus_answer (s : State) (d : Dir) (o : Nat) (w : Word) : (s.onBus d o w).answer = s.answer := rfl
@[simp] theorem State.onBus_bus (s : State) (d : Dir) (o : Nat) (w : Word) : (s.onBus d o w).bus = some ⟨d, o, w⟩ := rfl
@[simp] theorem State.onBus_agenda (s : State) (d : Dir) (o : Nat) (w : Word) : (s.onBus d o w).agenda = s.agenda := rfl
@[simp] theorem State.onBus_draws (s : State) (d : Dir) (o : Nat) (w : Word) : (s.onBus d o w).draws = s.draws := rfl

@[simp] theorem State.answering_v (s : State) (x : Answer) : (s.answering x).v = s.v := rfl
@[simp] theorem State.answering_c (s : State) (x : Answer) : (s.answering x).c = s.c := rfl
@[simp] theorem State.answering_k (s : State) (x : Answer) : (s.answering x).k = s.k := rfl
@[simp] theorem State.answering_waiting (s : State) (x : Answer) : (s.answering x).waiting = s.waiting := rfl
@[simp] theorem State.answering_answer (s : State) (x : Answer) : (s.answering x).answer = x := rfl
@[simp] theorem State.answering_bus (s : State) (x : Answer) : (s.answering x).bus = s.bus := rfl
@[simp] theorem State.answering_agenda (s : State) (x : Answer) : (s.answering x).agenda = s.agenda := rfl
@[simp] theorem State.answering_draws (s : State) (x : Answer) : (s.answering x).draws = s.draws := rfl

@[simp] theorem State.drew_v (s : State) (n : Nat) : (s.drew n).v = s.v := rfl
@[simp] theorem State.drew_c (s : State) (n : Nat) : (s.drew n).c = s.c := rfl
@[simp] theorem State.drew_k (s : State) (n : Nat) : (s.drew n).k = s.k := rfl
@[simp] theorem State.drew_waiting (s : State) (n : Nat) : (s.drew n).waiting = s.waiting := rfl
@[simp] theorem State.drew_answer (s : State) (n : Nat) : (s.drew n).answer = s.answer := rfl
@[simp] theorem State.drew_bus (s : State) (n : Nat) : (s.drew n).bus = s.bus := rfl
@[simp] theorem State.drew_agenda (s : State) (n : Nat) : (s.drew n).agenda = s.agenda := rfl
@[simp] theorem State.drew_draws (s : State) (n : Nat) : (s.drew n).draws = s.draws + n := rfl

@[simp] theorem State.begin_v (s : State) (x : List Event) : (s.begin x).v = s.v := rfl
@[simp] theorem State.begin_c (s : State) (x : List Event) : (s.begin x).c = s.c := rfl
@[simp] theorem State.begin_k (s : State) (x : List Event) : (s.begin x).k = s.k := rfl
@[simp] theorem State.begin_waiting (s : State) (x : List Event) : (s.begin x).waiting = s.waiting := rfl
@[simp] theorem State.begin_answer (s : State) (x : List Event) : (s.begin x).answer = .none := rfl
@[simp] theorem State.begin_bus (s : State) (x : List Event) : (s.begin x).bus = none := rfl
@[simp] theorem State.begin_agenda (s : State) (x : List Event) : (s.begin x).agenda = x := rfl
@[simp] theorem State.begin_draws (s : State) (x : List Event) : (s.begin x).draws = s.draws := rfl

end Sys2Proof.Machine
end

