-- ==== Sys2Proof/Laws/Registers.lean ====
section
/-! SUPPORT. What a register transaction can do, said once: the address map, each register's read and write, and `RegRead`
and `RegWrite` over them. Later proofs cite these and unfold none of the operations. -/

namespace Sys2Proof.Machine

variable {φ : Type}

/-! ## The address map -/

/-- The named offsets as numbers (R5), for arithmetic. -/
theorem offsets_eq : triggerOff = 0 ∧ busyOff = 8 ∧ dacOff = 16 := ⟨rfl, rfl, rfl⟩

@[simp] theorem regTarget_trigger (p : Params φ) : regTarget p triggerOff = .ok .trigger := rfl
@[simp] theorem regTarget_busy (p : Params φ) : regTarget p busyOff = .ok .busy := rfl
@[simp] theorem regTarget_dac (p : Params φ) : regTarget p dacOff = .ok .dac := rfl

/-- A sample word's offset stands for that word (R72). -/
theorem regTarget_sample {p : Params φ} (hv : p.Valid) {i : Nat} (hi : i < p.bufDepth) :
    regTarget p (sampleOff p i) = .ok (.sample i) := by
  have h1 := hv.base_aligned
  have h2 := hv.base_above
  have h3 : sampleOff p i = p.sampleBase + 4 * i := rfl
  have h4 := offsets_eq
  rw [regTarget, if_neg (by omega), if_neg (by omega), if_neg (by omega), if_neg (by omega), if_pos (by omega)]
  congr 2; omega

/-- What stands at an offset tells the offset (R72). -/
theorem regTarget_ok {p : Params φ} (hv : p.Valid) {off : Nat} {tgt : RegTarget} (h : regTarget p off = .ok tgt) :
    match tgt with
    | .trigger => off = triggerOff
    | .busy => off = busyOff
    | .dac => off = dacOff
    | .sample i => i < p.bufDepth ∧ off = sampleOff p i := by
  have h1 := hv.base_aligned
  simp only [regTarget] at h
  split at h
  · cases h; assumption
  · split at h
    · cases h; assumption
    · split at h
      · cases h; assumption
      · split at h
        · cases h
        · split at h
          · cases h
            simp only [sampleOff] at *
            omega
          · cases h

/-! ## Reads: the word is on the bus, and nothing else changes but the number of draws -/

theorem readTrigger_state (s : State) : (readTrigger s).2 = s.onBus .rd triggerOff (readTrigger s).1 := rfl

theorem readBusy_idle {s : State} (h : s.v.acquiring = false) : readBusy s = (0, s.onBus .rd busyOff 0) := by
  simp [readBusy, h]

theorem readBusy_acquiring {s : State} (h : s.v.acquiring = true) :
    readBusy s = (Config.drawNonzero s.draws, (s.drew 1).onBus .rd busyOff (Config.drawNonzero s.draws)) := by
  simp [readBusy, h]

theorem readBusy_cases (s : State) :
    ∃ n, (readBusy s).2 = (s.drew n).onBus .rd busyOff (readBusy s).1 := by
  cases h : s.v.acquiring
  · exact ⟨0, by rw [readBusy_idle h]; rfl⟩
  · exact ⟨1, by rw [readBusy_acquiring h]⟩

theorem readSample_cell {p : Params φ} {i : Nat} {s : State} {w : Word} (h : s.v.acquiring = false)
    (hw : s.v.buf.readWord (sampleOff p i) = some w) :
    readSample p i s = (w, s.onBus .rd (sampleOff p i) w) := by
  simp [readSample, h, hw]

theorem readSample_draw {p : Params φ} {i : Nat} {s : State}
    (h : s.v.acquiring = true ∨ s.v.buf.readWord (sampleOff p i) = none) :
    readSample p i s =
      (Config.drawWord s.draws, (s.drew 1).onBus .rd (sampleOff p i) (Config.drawWord s.draws)) := by
  rcases h with h | h
  · simp [readSample, h]
  · simp [readSample, h]

theorem readSample_cases (p : Params φ) (i : Nat) (s : State) :
    ∃ n, (readSample p i s).2 = (s.drew n).onBus .rd (sampleOff p i) (readSample p i s).1 := by
  by_cases h : s.v.acquiring = true ∨ s.v.buf.readWord (sampleOff p i) = none
  · exact ⟨1, by rw [readSample_draw h]⟩
  · simp only [not_or, Bool.not_eq_true] at h
    obtain ⟨w, hw⟩ := Option.ne_none_iff_exists'.1 h.2
    exact ⟨0, by rw [readSample_cell h.1 hw]; rfl⟩

/-- A read at a sample word's offset reads that word. -/
theorem regRead_sample {p : Params φ} (hv : p.Valid) {i : Nat} (hi : i < p.bufDepth) (s : State) :
    regRead p (sampleOff p i) s = .ok (readSample p i s) := by
  simp only [regRead, regTarget_sample hv hi]

/-- A read transaction answers a word, puts it on the bus, and may use draws: nothing else. -/
theorem regRead_cases {p : Params φ} (hv : p.Valid) {off : Nat} {s t : State} {w : Word}
    (h : regRead p off s = .ok (w, t)) : ∃ n, t = (s.drew n).onBus .rd off w := by
  simp only [regRead] at h
  split at h <;> rename_i tgt
  · cases h
    exact ⟨0, by rw [show off = triggerOff from regTarget_ok hv tgt]; rfl⟩
  · have := regTarget_ok hv tgt
    obtain ⟨n, hn⟩ := readBusy_cases s
    simp only at this
    subst this
    injection h with h
    rw [h] at hn
    exact ⟨n, hn⟩
  · cases h
  · obtain ⟨-, rfl⟩ := regTarget_ok hv tgt
    obtain ⟨n, hn⟩ := readSample_cases p _ s
    injection h with h
    rw [h] at hn
    exact ⟨n, hn⟩
  · cases h

/-! ## Writes: only the device and the bus change -/

/-- A write transaction leaves one of three marks on the device: none; the line, and the start of an acquisition; a level.
The word written is on the bus. -/
inductive Wrote (s : State) (off : Nat) (v : Word) (t : State) : Prop where
  | nothing (h : t = s.onBus .wr off v)
  | line (ho : off = triggerOff) (hr : ¬ (risingEdge s.v.trig v = true ∧ s.v.acquiring = true))
      (h : t = (s.withV { s.v with
        trig := triggerLevel v
        acquiring := s.v.acquiring || risingEdge s.v.trig v }).onBus .wr off v)
  | level (ho : off = dacOff) (ha : dacAccepts v = true)
      (h : t = (s.withV { s.v with dac := some (loHalf v) }).onBus .wr off v)

theorem writeTrigger_cases {v : Word} {s t : State} (h : writeTrigger v s = .ok t) : Wrote s triggerOff v t := by
  simp only [writeTrigger] at h
  split at h
  · cases h
  · rename_i hr
    cases h
    exact .line rfl (by simpa using hr) rfl

theorem writeDac_cases (v : Word) (s : State) : Wrote s dacOff v (writeDac v s) := by
  simp only [writeDac]
  split
  · rename_i ha; exact .level rfl ha rfl
  · exact .nothing rfl

theorem writeBusy_cases (v : Word) (s : State) : Wrote s busyOff v (writeBusy v s) := .nothing rfl

/-- What a write transaction can do. -/
theorem regWrite_cases {p : Params φ} (hv : p.Valid) {off : Nat} {v : Word} {s t : State}
    (h : regWrite p off v s = .ok t) : Wrote s off v t := by
  simp only [regWrite] at h
  split at h <;> rename_i tgt
  · have ho := regTarget_ok hv tgt
    simp only at ho; subst ho; exact writeTrigger_cases h
  · have ho := regTarget_ok hv tgt
    simp only at ho; subst ho; cases h; exact writeBusy_cases v s
  · have ho := regTarget_ok hv tgt
    simp only at ho; subst ho; cases h; exact writeDac_cases v s
  · cases h
  · cases h

namespace Wrote

variable {s t : State} {off : Nat} {v : Word}

theorem c_eq (h : Wrote s off v t) : t.c = s.c := by cases h <;> rename_i h <;> rw [h] <;> rfl
theorem k_eq (h : Wrote s off v t) : t.k = s.k := by cases h <;> rename_i h <;> rw [h] <;> rfl
theorem waiting_eq (h : Wrote s off v t) : t.waiting = s.waiting := by cases h <;> rename_i h <;> rw [h] <;> rfl
theorem answer_eq (h : Wrote s off v t) : t.answer = s.answer := by cases h <;> rename_i h <;> rw [h] <;> rfl
theorem agenda_eq (h : Wrote s off v t) : t.agenda = s.agenda := by cases h <;> rename_i h <;> rw [h] <;> rfl
theorem draws_eq (h : Wrote s off v t) : t.draws = s.draws := by cases h <;> rename_i h <;> rw [h] <;> rfl
theorem buf_eq (h : Wrote s off v t) : t.v.buf = s.v.buf := by cases h <;> rename_i h <;> rw [h] <;> rfl
theorem bus_eq (h : Wrote s off v t) : t.bus = some ⟨.wr, off, v⟩ := by cases h <;> rename_i h <;> rw [h] <;> rfl

end Wrote

/-! ## The two writes of the strobe -/

/-- The rising write on a resting line of a device at rest starts the acquisition (R121). -/
theorem writeTrigger_one {s : State} (hl : s.v.trig = 0) (ha : s.v.acquiring = false) :
    writeTrigger 1 s = .ok ((s.withV { s.v with trig := 1, acquiring := true }).onBus .wr triggerOff 1) := by
  simp only [writeTrigger, hl, ha, Bool.and_false, Bool.false_or]
  rfl

/-- The rising write while acquiring is refused (R129). -/
theorem writeTrigger_one_acquiring {s : State} (hl : s.v.trig = 0) (ha : s.v.acquiring = true) :
    writeTrigger 1 s = .error .strobeWhileAcquiring := by
  simp only [writeTrigger, hl, ha, Bool.and_true]
  rfl

/-- The falling write lowers the line and touches nothing else (R121). -/
theorem writeTrigger_zero (s : State) :
    writeTrigger 0 s = .ok ((s.withV { s.v with trig := 0 }).onBus .wr triggerOff 0) := by
  have h : risingEdge s.v.trig 0 = false := by simp [risingEdge, triggerLevel]
  simp only [writeTrigger, h, Bool.false_and, Bool.or_false]
  rfl

end Sys2Proof.Machine
end

