-- ==== Sys2Proof/Laws/Acquire.lean ====
section
/-! SUPPORT. What the controller's steps and the other agents' moves can do, said once. -/

namespace Sys2Proof.Machine

variable {φ : Type}

/-- `C` right after acceptance (R142). -/
def Controller.accepted (c : Controller) (r : Request) : Controller :=
  { c with
    req := r
    seq := c.seq + 1
    polls := 0
    idx := 0
    raw := []
    result := .none
    st := .triggering
    ph := if r.dacValue = none then .tHigh else .tDac }

theorem accept_ok {p : Params φ} {r : Request} (s : State) (h : r.wordCount ≤ p.bufDepth) :
    accept p r s = .next (s.withC (s.c.accepted r)) := by
  rw [accept, if_neg (by omega)]
  rfl

/-- Acceptance happens only to a request the buffer can hold (R142). -/
theorem accept_cases {p : Params φ} {r : Request} {s t : State} (h : accept p r s = .next t) :
    r.wordCount ≤ p.bufDepth ∧ t = s.withC (s.c.accepted r) := by
  by_cases hw : r.wordCount ≤ p.bufDepth
  · rw [accept_ok s hw] at h; cases h; exact ⟨hw, rfl⟩
  · rw [accept, if_pos (by omega)] at h; cases h

/-- The steps of a session (R141): each phase's write or read with the field it writes, the three ways out of a poll, the
sample read, the delivery. -/
inductive SessionStep (p : Params φ) (s t : State) : Prop where
  | dac (d : Half) (u : State) (hst : s.c.st = .triggering) (hph : s.c.ph = .tDac) (hd : s.c.req.dacValue = some d)
      (hw : Wrote s dacOff (zext32 d) u) (h : t = u.withC { s.c with ph := .tHigh })
  | high (u : State) (hst : s.c.st = .triggering) (hph : s.c.ph = .tHigh)
      (hw : writeTrigger 1 s = .ok u) (h : t = u.withC { s.c with ph := .tLow })
  | low (u : State) (hst : s.c.st = .triggering) (hph : s.c.ph = .tLow)
      (hw : writeTrigger 0 s = .ok u) (h : t = u.withC { s.c with ph := .tDiag })
  | diag (hst : s.c.st = .triggering) (hph : s.c.ph = .tDiag)
      (h : t = (readTrigger s).2.withC { s.c with diag := (readTrigger s).1, st := .busy })
  | pollZero (hst : s.c.st = .busy) (ha : s.v.acquiring = false)
      (h : t = (readBusy s).2.withC { s.c with polls := s.c.polls + 1, st := .ready })
  | pollAgain (hst : s.c.st = .busy) (ha : s.v.acquiring = true) (hp : s.c.polls + 1 ≠ p.pollLimit)
      (h : t = (readBusy s).2.withC { s.c with polls := s.c.polls + 1 })
  | timeout (hst : s.c.st = .busy) (ha : s.v.acquiring = true) (hp : s.c.polls + 1 = p.pollLimit)
      (h : t = (readBusy s).2.withC { s.c with
        polls := s.c.polls + 1, raw := [], result := .condition s.c.seq .acquisitionTimeout, st := .idle })
  | sample (w : Word) (n : Nat) (hst : s.c.st = .ready) (hi : s.c.idx < s.c.req.wordCount)
      (hr : regRead p (sampleOff p s.c.idx) s = .ok (w, (s.drew n).onBus .rd (sampleOff p s.c.idx) w))
      (h : t = ((s.drew n).onBus .rd (sampleOff p s.c.idx) w).withC
        { s.c with raw := s.c.raw ++ [w], idx := s.c.idx + 1 })
  | deliver (hst : s.c.st = .ready) (hi : s.c.idx = s.c.req.wordCount)
      (h : t = s.withC { s.c with
        result := .block s.c.seq (decodeBlock s.c.raw p.layout), raw := [], st := .idle })

/-- The poll of a device at rest ends `Busy` (R149). -/
theorem stepPoll_zero {p : Params φ} {s : State} (ha : s.v.acquiring = false) :
    stepPoll p s = .next ((readBusy s).2.withC { s.c with polls := s.c.polls + 1, st := .ready }) := by
  simp only [stepPoll, regRead, regTarget_busy, readBusy_idle ha, afterPoll, if_true]; rfl

/-- A poll of a device that acquires, not the last one allowed, is counted (R148). -/
theorem stepPoll_again {p : Params φ} {s : State} (ha : s.v.acquiring = true) (hp : s.c.polls + 1 ≠ p.pollLimit) :
    stepPoll p s = .next ((readBusy s).2.withC { s.c with polls := s.c.polls + 1 }) := by
  simp only [stepPoll, regRead, regTarget_busy, readBusy_acquiring ha, afterPoll, Laws.Config.drawNonzero_ne_zero, if_false]
  rw [if_neg (by exact hp)]; rfl

/-- The last poll allowed, of a device that acquires, ends the session (R150). -/
theorem stepPoll_timeout {p : Params φ} {s : State} (ha : s.v.acquiring = true) (hp : s.c.polls + 1 = p.pollLimit) :
    stepPoll p s = .next ((readBusy s).2.withC { s.c with
      polls := s.c.polls + 1, raw := [], result := .condition s.c.seq .acquisitionTimeout, st := .idle }) := by
  simp only [stepPoll, regRead, regTarget_busy, readBusy_acquiring ha, afterPoll, Laws.Config.drawNonzero_ne_zero, if_false]
  rw [if_pos (by exact hp)]; rfl

/-- A controller step that answers a next state is one of the steps of R141. -/
theorem controllerStep_cases {p : Params φ} (hv : p.Valid) {s t : State} (h : controllerStep p s = .next t) :
    SessionStep p s t := by
  rw [controllerStep] at h
  split at h
  · cases h
  · rename_i hst
    split at h
    · rename_i hph
      rw [stepDac] at h
      split at h
      · rename_i d hd
        split at h
        · rename_i u hu
          have hw := regWrite_cases hv hu
          injection h with h
          exact .dac d u hst hph hd hw (by rw [← h, hw.c_eq])
        · cases h
      · cases h
    · rename_i hph
      rw [stepHigh] at h
      split at h
      · rename_i u hu
        have hw := regWrite_cases hv hu
        injection h with h
        exact .high u hst hph hu (by rw [← h, hw.c_eq])
      · cases h
    · rename_i hph
      rw [stepLow] at h
      split at h
      · rename_i u hu
        have hw := regWrite_cases hv hu
        injection h with h
        exact .low u hst hph hu (by rw [← h, hw.c_eq])
      · cases h
    · rename_i hph
      rw [stepDiag] at h
      injection h with h
      exact .diag hst hph (by rw [← h]; rfl)
  · rename_i hst
    cases ha : s.v.acquiring
    · rw [stepPoll_zero ha] at h
      injection h with h
      exact .pollZero hst ha h.symm
    · by_cases hp : s.c.polls + 1 = p.pollLimit
      · rw [stepPoll_timeout ha hp] at h
        injection h with h
        exact .timeout hst ha hp h.symm
      · rw [stepPoll_again ha hp] at h
        injection h with h
        exact .pollAgain hst ha hp h.symm
  · rename_i hst
    split at h
    · rename_i hi
      rw [stepSample] at h
      split at h
      · rename_i w u hu
        obtain ⟨n, rfl⟩ := regRead_cases hv hu
        injection h with h
        exact .sample w n hst hi hu h.symm
      · cases h
    · split at h
      · rename_i hi
        injection h with h
        exact .deliver hst hi h.symm
      · cases h

/-- Completion happens only while acquiring (R131). -/
theorem completion_cases {p : Params φ} {s t : State} (h : completion p s = .next t) :
    s.v.acquiring = true ∧
    t = (s.withV { s.v with
      buf := s.v.buf.fill p.sampleBase s.draws p.bufDepth, acquiring := false }).drew p.bufDepth := by
  rw [completion] at h
  split at h
  · rename_i ha; injection h with h; exact ⟨ha, h.symm⟩
  · cases h

/-- Taking a result only clears the port (R158). -/
theorem takeResult_cases {s t : State} (h : takeResult s = .next t) :
    s.c.result ≠ .none ∧ t = (s.withC { s.c with result := .none }).answering (.result s.c.result) := by
  rw [takeResult] at h
  split at h
  · cases h
  · rename_i hr; injection h with h; rw [hr]; exact ⟨by simp, h.symm⟩
  · rename_i hr; injection h with h; rw [hr]; exact ⟨by simp, h.symm⟩

/-- A waiting request is accepted in `Idle`, and leaves the port (R157). -/
theorem acceptWaiting_cases {p : Params φ} {n : Nat} {s t : State} (h : acceptWaiting p n s = .next t) :
    ∃ r, s.c.st = .idle ∧ s.waiting[n]? = some r ∧ r.wordCount ≤ p.bufDepth ∧
      t = { s with c := s.c.accepted r, waiting := s.waiting.eraseIdx n } := by
  rw [acceptWaiting] at h
  split at h
  · rename_i r hst hr
    obtain ⟨hw, rfl⟩ := accept_cases h
    exact ⟨r, hst, hr, hw, rfl⟩
  · cases h

end Sys2Proof.Machine
end

