-- ==== Sys2Proof/Laws/Classify.lean ====
section
/-! SUPPORT. The comparisons as propositions, and one sample of a classify run at a time (43_spike_classify.md,
44_lut_locate.md). -/

namespace Sys2Proof.Machine

theorem isOnset_iff {onset : Nat} {x : S16} : isOnset onset x = true ↔ onset < x.val.natAbs := decide_eq_true_iff

theorem isRelease_iff {offset : Nat} {x : S16} : isRelease offset x = true ↔ x.val.natAbs ≤ offset :=
  decide_eq_true_iff

theorem isNewPeak_iff {peak x : S16} : isNewPeak peak x = true ↔ peak.val.natAbs < x.val.natAbs := decide_eq_true_iff

theorem isTriggerEdge_iff {threshold : Int} {a b : S16} :
    isTriggerEdge threshold a b = true ↔ threshold < b.val - a.val := decide_eq_true_iff

theorem isLocalMax_iff {height : Int} {a b c : S16} :
    isLocalMax height a b c = true ↔ a.val < b.val ∧ c.val < b.val ∧ height < b.val := decide_eq_true_iff

/-- The magnitude of a sample is at most 32768, and that only of the most negative one (R16). -/
theorem mag_le (x : S16) : mag x ≤ 32768 := by
  obtain ⟨v, h1, h2⟩ := x
  simp only [mag]; omega

/-- A run over a longer list is the run over the shorter one and one more sample (R185, R189). -/
theorem hystRun_append (e : BandEdges) (onset offset : Nat) (k : Classifier) (xs : List S16) (x : S16) :
    hystRun e onset offset k (xs ++ [x]) = (hystSample e onset offset x (hystRun e onset offset k xs)).advance := by
  simp [hystRun]

theorem skipRun_append (e : BandEdges) (onset dead : Nat) (k : Classifier) (xs : List S16) (x : S16) :
    skipRun e onset dead k (xs ++ [x]) = (skipSample e onset dead x (skipRun e onset dead k xs)).advance := by
  simp [skipRun]

/-- BUCKET counts the edges at or below the magnitude (R200). -/
theorem bucketOf_val (e : BandEdges) (m : Nat) : (bucketOf e m).val = e.toList.countP (fun x => decide (x ≤ m)) := rfl

end Sys2Proof.Machine
end

