-- ==== Sys2Proof/Laws/Decode.lean ====
section
/-! SUPPORT. The laws of the descriptor: its bytes stand for one number, and the number for one direction and one offset
(30_encoding.md rules R91 and R113, log 4). -/

namespace Sys2Proof

variable {φ : Type}

theorem leNat_minimalBytes : ∀ fuel n : Nat, n ≤ fuel → leNat (minimalBytes fuel n) = n := by
  intro fuel
  induction fuel with
  | zero =>
    intro n h
    simp only [minimalBytes, leNat]
    omega
  | succ fuel ih =>
    intro n h
    simp only [minimalBytes]
    split
    · simp only [leNat]; omega
    · rw [leNat, ih _ (by omega)]
      simp only [BitVec.toNat_ofNat]
      omega

@[simp] theorem leNat_descriptorBytes (d : Nat) : leNat (descriptorBytes d) = d := by
  simp only [descriptorBytes, leNat, leNat_minimalBytes _ _ (Nat.le_refl _), BitVec.toNat_ofNat]
  omega

@[simp] theorem descriptorDir_pack (dir : Dir) (off : Nat) : descriptorDir (packDescriptor dir off) = dir := by
  cases dir
  · have : ¬ packDescriptor .rd off / 0x10000 % 2 = 1 := by simp only [packDescriptor]; omega
    rw [descriptorDir, if_neg this]
  · have : packDescriptor .wr off / 0x10000 % 2 = 1 := by simp only [packDescriptor]; omega
    rw [descriptorDir, if_pos this]

@[simp] theorem descriptorOff_pack (dir : Dir) (off : Nat) : descriptorOff (packDescriptor dir off) = off := by
  cases dir <;> simp only [descriptorOff, packDescriptor] <;> omega

/-- A descriptor is its direction and its offset. -/
theorem packDescriptor_parts (d : Nat) : packDescriptor (descriptorDir d) (descriptorOff d) = d := by
  by_cases h : d / 0x10000 % 2 = 1
  · rw [descriptorDir, if_pos h]; simp only [packDescriptor, descriptorOff]; omega
  · rw [descriptorDir, if_neg h]; simp only [packDescriptor, descriptorOff]; omega

/-- A descriptor in its one form, of a 32-bit transaction, is decoded by its direction and offset. -/
theorem decode_descriptor (p : Params φ) (dir : Dir) (off : Nat) (data : Option Word) :
    decode p (.reg (descriptorBytes (packDescriptor dir off)) 4 data) = decodeReg p dir off data := by
  simp only [decode, leNat_descriptorBytes, descriptorDir_pack, descriptorOff_pack, ne_eq, not_true_eq_false, if_false]

end Sys2Proof
end

