-- ==== Sys2Proof/Laws/Memory.lean ====
section
/-! SUPPORT. The laws of the sample buffer's bytes: a read after a write, the canonical form, and what a completion leaves. -/

namespace Sys2Proof.Machine

variable {φ : Type}

/-! ## One byte -/

theorem Memory.read_write_same (m : Memory) (a : Nat) (v : Byte) : (m.write a v).read a = some v := by
  induction m with
  | nil => simp [Memory.write, Memory.read]
  | cons c m ih =>
    obtain ⟨x, b⟩ := c
    simp only [Memory.write]
    split
    · simp [Memory.read]
    · split
      · simp [Memory.read]
      · rw [Memory.read, if_neg (by omega), ih]

theorem Memory.read_write_other (m : Memory) {a x : Nat} (v : Byte) (h : x ≠ a) :
    (m.write a v).read x = m.read x := by
  induction m with
  | nil => simp [Memory.write, Memory.read, h]
  | cons c m ih =>
    obtain ⟨y, b⟩ := c
    simp only [Memory.write]
    split
    · rw [Memory.read, if_neg h]
    · split
      · rename_i h2
        subst h2
        simp [Memory.read, h]
      · simp [Memory.read, ih]

theorem Memory.read_write (m : Memory) (a x : Nat) (v : Byte) :
    (m.write a v).read x = if x = a then some v else m.read x := by
  split
  · rename_i h; subst h; exact m.read_write_same _ v
  · rename_i h; exact m.read_write_other v h

theorem Memory.mem_write {m : Memory} {a : Nat} {v : Byte} {c : Host.Cell} (h : c ∈ m.write a v) :
    c = (a, v) ∨ c ∈ m := by
  induction m with
  | nil => simpa [Memory.write] using h
  | cons d m ih =>
    obtain ⟨x, b⟩ := d
    simp only [Memory.write] at h
    split at h
    · simpa using h
    · split at h
      · rcases List.mem_cons.1 h with h | h <;> simp [h]
      · rcases List.mem_cons.1 h with h | h
        · simp [h]
        · rcases ih h with h | h <;> simp [h]

/-- A store keeps the canonical form. -/
theorem Memory.write_wf {m : Memory} (h : m.wf) (a : Nat) (v : Byte) : (m.write a v).wf := by
  induction m with
  | nil => simp [Memory.write]
  | cons c m ih =>
    obtain ⟨x, b⟩ := c
    have hm := List.pairwise_cons.1 h
    simp only [Memory.write]
    split
    · rename_i hx
      refine List.pairwise_cons.2 ⟨fun d hd => ?_, h⟩
      rcases List.mem_cons.1 hd with rfl | hd
      · exact hx
      · exact Nat.lt_trans hx (hm.1 d hd)
    · split
      · rename_i hx
        subst hx
        exact List.pairwise_cons.2 ⟨hm.1, hm.2⟩
      · refine List.pairwise_cons.2 ⟨fun d hd => ?_, ih hm.2⟩
        rcases Memory.mem_write hd with rfl | hd
        · simp only; omega
        · exact hm.1 d hd

theorem Memory.write_inBuffer {p : Params φ} {m : Memory} (h : m.inBuffer p) {a : Nat} (v : Byte)
    (ha : p.sampleBase ≤ a ∧ a < p.sampleBase + 4 * p.bufDepth) : (m.write a v).inBuffer p := by
  intro c hc
  rcases Memory.mem_write hc with rfl | hc
  · exact ha
  · exact h c hc

/-! ## One register word -/

/-- The bytes of a word put together again are the word (R64). -/
theorem wordOfBytes_byteOf (w : Word) : wordOfBytes (byteOf w 0) (byteOf w 1) (byteOf w 2) (byteOf w 3) = w := by
  apply BitVec.eq_of_getLsbD_eq
  intro i hi
  change (byteOf w 3 ++ byteOf w 2 ++ byteOf w 1 ++ byteOf w 0).getLsbD i = _
  simp only [byteOf, BitVec.getLsbD_append, BitVec.getLsbD_extractLsb']
  split
  · simp only [*, decide_true, Bool.true_and]; congr 1; omega
  · split
    · simp only [*, decide_true, Bool.true_and]; congr 1; omega
    · split
      · simp only [*, decide_true, Bool.true_and]; congr 1; omega
      · rw [decide_eq_true (by omega : i - 8 - 8 - 8 < 8), Bool.true_and]; congr 1; omega

theorem Memory.readWord_writeWord_same (m : Memory) (a : Nat) (w : Word) : (m.writeWord a w).readWord a = some w := by
  simp [Memory.readWord, Memory.writeWord, Memory.read_write, wordOfBytes_byteOf]

theorem Memory.read_writeWord_other (m : Memory) {a x : Nat} (w : Word) (h : x < a ∨ a + 4 ≤ x) :
    (m.writeWord a w).read x = m.read x := by
  simp only [Memory.writeWord]
  rw [Memory.read_write_other _ _ (by omega), Memory.read_write_other _ _ (by omega),
    Memory.read_write_other _ _ (by omega), Memory.read_write_other _ _ (by omega)]

theorem Memory.readWord_writeWord_other (m : Memory) {a x : Nat} (w : Word) (h : x + 4 ≤ a ∨ a + 4 ≤ x) :
    (m.writeWord a w).readWord x = m.readWord x := by
  simp only [Memory.readWord]
  rw [Memory.read_writeWord_other _ _ (by omega), Memory.read_writeWord_other _ _ (by omega),
    Memory.read_writeWord_other _ _ (by omega), Memory.read_writeWord_other _ _ (by omega)]

theorem Memory.writeWord_wf {m : Memory} (h : m.wf) (a : Nat) (w : Word) : (m.writeWord a w).wf :=
  Memory.write_wf (Memory.write_wf (Memory.write_wf (Memory.write_wf h _ _) _ _) _ _) _ _

theorem Memory.writeWord_inBuffer {p : Params φ} {m : Memory} (h : m.inBuffer p) {i : Nat} (w : Word)
    (hi : i < p.bufDepth) : (m.writeWord (sampleOff p i) w).inBuffer p := by
  simp only [sampleOff] at *
  refine Memory.write_inBuffer (Memory.write_inBuffer (Memory.write_inBuffer (Memory.write_inBuffer h _ ?_) _ ?_) _ ?_) _ ?_ <;>
    omega

/-! ## Completion's words -/

theorem Memory.fill_wf {m : Memory} (h : m.wf) (base d n : Nat) : (m.fill base d n).wf := by
  induction n with
  | zero => exact h
  | succ n ih => exact Memory.writeWord_wf ih _ _

theorem Memory.fill_inBuffer {p : Params φ} {m : Memory} (h : m.inBuffer p) (d : Nat) {n : Nat} (hn : n ≤ p.bufDepth) :
    (m.fill p.sampleBase d n).inBuffer p := by
  induction n with
  | zero => exact h
  | succ n ih => exact Memory.writeWord_inBuffer (ih (by omega)) _ (by omega)

/-- Filling leaves every byte outside the filled cells. -/
theorem Memory.read_fill_outside (m : Memory) (base d n : Nat) {x : Nat} (h : x < base ∨ base + 4 * n ≤ x) :
    (m.fill base d n).read x = m.read x := by
  induction n with
  | zero => rfl
  | succ n ih =>
      rw [Memory.fill, Memory.read_writeWord_other _ _ (by omega), ih (by omega)]

/-- Filling leaves each filled cell with its own draw. -/
theorem Memory.readWord_fill (m : Memory) (base d : Nat) {n i : Nat} (h : i < n) :
    (m.fill base d n).readWord (base + 4 * i) = some (Config.drawWord (d + i)) := by
  induction n with
  | zero => omega
  | succ n ih =>
    rw [Memory.fill]
    by_cases hi : i = n
    · subst hi; exact Memory.readWord_writeWord_same _ _ _
    · rw [Memory.readWord_writeWord_other _ _ (by omega), ih (by omega)]

/-- The memory after reset is in canonical form. -/
theorem reset_buf_wf : State.reset.v.buf.wf := List.Pairwise.nil

end Sys2Proof.Machine
end

