-- ==== Sys2Proof/Laws/PerInstr.lean ====
section
/-! SUPPORT. Statements made for every operation of the table. `Form`: how an operation is presented, whatever the
configuration (30_encoding.md rules R91, R92 and R108). -/

namespace Sys2Proof.Laws.Form

/-- The encoding is a 32-bit register transaction whose descriptor reads back in its one form, with a data word exactly
when bit 16 says write; or one selector byte in 0x01 to 0x08. -/
def Statement (i : Instr) : Prop :=
  ∀ (φ : Type) (p : Params φ), match encode p i with
  | .reg bytes width data =>
    width = 4 ∧ descriptorBytes (leNat bytes) = bytes ∧ (data.isSome = true ↔ descriptorDir (leNat bytes) = .wr)
  | .cmd selector _ => ∃ op, selector = [op] ∧ 1 ≤ op.toNat ∧ op.toNat ≤ 8

theorem read (off : Nat) :
    match presentRead off with
    | .reg bytes width data =>
      width = 4 ∧ descriptorBytes (leNat bytes) = bytes ∧ (data.isSome = true ↔ descriptorDir (leNat bytes) = .wr)
    | .cmd selector _ => ∃ op, selector = [op] ∧ 1 ≤ op.toNat ∧ op.toNat ≤ 8 := by
  simp [presentRead]

theorem write (off : Nat) (v : Word) :
    match presentWrite off v with
    | .reg bytes width data =>
      width = 4 ∧ descriptorBytes (leNat bytes) = bytes ∧ (data.isSome = true ↔ descriptorDir (leNat bytes) = .wr)
    | .cmd selector _ => ∃ op, selector = [op] ∧ 1 ≤ op.toNat ∧ op.toNat ≤ 8 := by
  simp [presentWrite]

theorem wrTrigger (v : Word) : Statement (.wrTrigger v) := fun _ _ => write _ v
theorem rdTrigger : Statement .rdTrigger := fun _ _ => read _
theorem rdBusy : Statement .rdBusy := fun _ _ => read _
theorem wrBusy (v : Word) : Statement (.wrBusy v) := fun _ _ => write _ v
theorem wrDac (v : Word) : Statement (.wrDac v) := fun _ _ => write _ v
theorem rdSample (i : Nat) : Statement (.rdSample i) := fun _ _ => read _
theorem rdDac : Statement .rdDac := fun _ _ => read _
theorem wrSample (i : Nat) (v : Word) : Statement (.wrSample i v) := fun _ _ => write _ v
theorem acquire (r : Request) : Statement (.acquire r) := fun _ _ => ⟨0x01#8, rfl, by decide, by decide⟩
theorem decode (raw : List Word) (l : Layout) : Statement (.decode raw l) := fun _ _ => ⟨0x02#8, rfl, by decide, by decide⟩
theorem encode (b : ChannelBlock) (l : Layout) : Statement (.encode b l) := fun _ _ => ⟨0x03#8, rfl, by decide, by decide⟩
theorem classifyHyst (xs : List S16) (onset offset : Nat) : Statement (.classifyHyst xs onset offset) :=
  fun _ _ => ⟨0x04#8, rfl, by decide, by decide⟩
theorem classifySkip (xs : List S16) (onset dead : Nat) : Statement (.classifySkip xs onset dead) :=
  fun _ _ => ⟨0x05#8, rfl, by decide, by decide⟩
theorem bucket (m : Nat) : Statement (.bucket m) := fun _ _ => ⟨0x06#8, rfl, by decide, by decide⟩
theorem lutRead (k : Nat) : Statement (.lutRead k) := fun _ _ => ⟨0x07#8, rfl, by decide, by decide⟩
theorem locate (s t : List S16) : Statement (.locate s t) := fun _ _ => ⟨0x08#8, rfl, by decide, by decide⟩

end Sys2Proof.Laws.Form
end

