-- ==== Sys2Proof/Laws/Samples.lean ====
section
/-! SUPPORT. The laws of the sample conversions: what a half stands for, and that joining and splitting a word are inverse
(00_scope.md rule R11, 42_sample_decode.md rules R170 to R176). -/

namespace Sys2Proof.Machine

/-- A half's sample is its two's complement value (R11, log 11). -/
theorem s16Of_val (h : Half) : (s16Of h).val = h.toInt := by
  simp only [s16Of, BitVec.toInt_eq_toNat_cond]
  split <;> rename_i hlt
  · rw [if_pos (by omega)]
  · rw [if_neg (by omega)]; rfl

/-- A sample's half is its two's complement word (R11, log 11). -/
theorem u16Of_eq (v : S16) : u16Of v = BitVec.ofInt 16 v.val := by
  obtain ⟨v, h1, h2⟩ := v
  apply BitVec.eq_of_toNat_eq
  simp only [u16Of, BitVec.toNat_ofInt]
  split
  · simp only [BitVec.toNat_ofNat]; omega
  · simp only [BitVec.toNat_ofNat]; omega

@[simp] theorem s16Of_u16Of (v : S16) : s16Of (u16Of v) = v := by
  obtain ⟨v, h1, h2⟩ := v
  apply Subtype.ext
  simp only [s16Of_val, u16Of_eq, BitVec.toInt_ofInt]
  exact Int.bmod_eq_of_le (by omega) (by omega)

@[simp] theorem u16Of_s16Of (h : Half) : u16Of (s16Of h) = h := by
  rw [u16Of_eq, s16Of_val, BitVec.ofInt_toInt]

@[simp] theorem loHalf_append (hi lo : Half) : loHalf (hi ++ lo) = lo := by
  apply BitVec.eq_of_getLsbD_eq
  intro i h
  simp only [loHalf, BitVec.getLsbD_extractLsb', BitVec.getLsbD_append]
  rw [if_pos (by omega), Nat.zero_add, decide_eq_true h, Bool.true_and]

@[simp] theorem hiHalf_append (hi lo : Half) : hiHalf (hi ++ lo) = hi := by
  apply BitVec.eq_of_getLsbD_eq
  intro i h
  simp only [hiHalf, BitVec.getLsbD_extractLsb', BitVec.getLsbD_append]
  rw [if_neg (by omega), Nat.add_sub_cancel_left, decide_eq_true h, Bool.true_and]

theorem hiHalf_append_loHalf (w : Word) : hiHalf w ++ loHalf w = w := by
  apply BitVec.eq_of_getLsbD_eq
  intro i h
  simp only [hiHalf, loHalf, BitVec.getLsbD_append, BitVec.getLsbD_extractLsb']
  split
  · simp [*]
  · rw [decide_eq_true (by omega), Bool.true_and]; congr 1; omega

@[simp] theorem loSample_joinSamples (hi lo : S16) : loSample (joinSamples hi lo) = lo := by
  simp [loSample, joinSamples]

@[simp] theorem hiSample_joinSamples (hi lo : S16) : hiSample (joinSamples hi lo) = hi := by
  simp [hiSample, joinSamples]

/-- Splitting and joining a word gives the word. -/
theorem joinSamples_split (w : Word) : joinSamples (hiSample w) (loSample w) = w := by
  simp [joinSamples, hiSample, loSample, hiHalf_append_loHalf]

theorem wordOf_samples (l : Layout) (w : Word) : wordOf l (sampleA l w) (sampleB l w) = w := by
  cases l <;> exact joinSamples_split w

@[simp] theorem sampleA_wordOf (l : Layout) (a b : S16) : sampleA l (wordOf l a b) = a := by
  cases l <;> simp [sampleA, wordOf]

@[simp] theorem sampleB_wordOf (l : Layout) (a b : S16) : sampleB l (wordOf l a b) = b := by
  cases l <;> simp [sampleB, wordOf]

end Sys2Proof.Machine
end

