-- ==== Sys2Proof/Laws/Step.lean ====
section
/-! SUPPORT. What a step can do, said once: an operation is a register transaction, an ACQUIRE or pure; a step is an
operation, a move, or a session left to itself. -/

namespace Sys2Proof.Machine

variable {φ : Type}

/-- A state that differs from `s` at most in the classifier and the answer. -/
inductive Pure (s t : State) : Prop where
  | intro (k : Classifier) (a : Answer) (h : t = (s.withK k).answering a)

/-- A read transaction's mark: a word on the bus and as the answer, and perhaps a draw. -/
inductive ReadBack (s t : State) : Prop where
  | intro (n off : Nat) (w : Word) (h : t = ((s.drew n).onBus .rd off w).answering (.word w))

/-- What an operation `i` that answers a next state has done. -/
inductive Executed (p : Params φ) (i : Instr) (s t : State) : Prop where
  | wrote (off : Nat) (v : Word) (h : Wrote s off v t)
  | read (h : ReadBack s t)
  | accepted (r : Request) (hi : i = .acquire r) (hst : s.c.st = .idle) (hw : r.wordCount ≤ p.bufDepth)
      (h : t = s.withC (s.c.accepted r))
  | enqueued (r : Request) (hi : i = .acquire r) (hst : s.c.st ≠ .idle) (h : t = enqueue r s)
  | pure (h : Pure s t)

theorem execAcquire_cases {r : Request} {s t : State} (h : execAcquire r s = .next t) :
    Executed Config.params (.acquire r) s t := by
  rw [execAcquire] at h
  split at h <;> rename_i hst
  · obtain ⟨hw, rfl⟩ := accept_cases h
    exact .accepted r rfl hst hw rfl
  all_goals
    injection h with h
    exact .enqueued r rfl (by simp [hst]) h.symm

/-- What an operation can do. -/
theorem exec_cases {i : Instr} {s t : State} (h : exec i s = .next t) : Executed Config.params i s t := by
  cases i with
  | wrTrigger v =>
    simp only [exec, execWrTrigger] at h
    cases hw : writeTrigger v s with
    | error e => rw [hw] at h; cases h
    | ok u => rw [hw] at h; injection h with h; subst h; exact .wrote _ v (writeTrigger_cases hw)
  | rdTrigger => injection h with h; exact .read ⟨0, _, _, h.symm⟩
  | rdBusy =>
    simp only [exec, execRdBusy, answerWord] at h
    obtain ⟨n, hn⟩ := readBusy_cases s
    injection h with h
    exact .read ⟨n, _, _, by rw [← h, hn]⟩
  | wrBusy v => injection h with h; exact .wrote _ v (h ▸ writeBusy_cases v s)
  | wrDac v => injection h with h; exact .wrote _ v (h ▸ writeDac_cases v s)
  | rdSample n =>
    simp only [exec, execRdSample, answerWord] at h
    split at h
    · obtain ⟨k, hk⟩ := readSample_cases Config.params n s
      injection h with h
      exact .read ⟨k, _, _, by rw [← h, hk]⟩
    · cases h
  | rdDac => cases h
  | wrSample n v => cases h
  | acquire r => exact execAcquire_cases h
  | decode raw l => injection h with h; exact .pure ⟨s.k, _, h.symm⟩
  | encode b l =>
    simp only [exec, execEncode] at h
    split at h
    · injection h with h; exact .pure ⟨s.k, _, h.symm⟩
    · cases h
  | classifyHyst xs on off => injection h with h; exact .pure ⟨_, _, h.symm⟩
  | classifySkip xs on dead =>
    simp only [exec, execClassifySkip] at h
    split at h
    · cases h
    · injection h with h; exact .pure ⟨_, _, h.symm⟩
  | bucket m => injection h with h; exact .pure ⟨s.k, _, h.symm⟩
  | lutRead k =>
    simp only [exec, execLutRead] at h
    split at h
    · injection h with h; exact .pure ⟨s.k, _, h.symm⟩
    · cases h
  | locate xs ys =>
    simp only [exec, execLocate] at h
    split at h
    · injection h with h; exact .pure ⟨s.k, _, h.symm⟩
    · cases h

/-- What a step that answers a next state has done. -/
inductive Stepped (s t : State) : Prop where
  | waited (ha : s.agenda = []) (hst : s.c.st = .idle) (h : t = s.begin [])
  | executed (x : Presented) (i : Instr) (rest : List Event) (ha : s.agenda = .present x :: rest)
      (hd : decode Config.params x = .ok i) (h : Executed Config.params i (s.begin rest) t)
  | session (rest : List Event) (ha : s.agenda = [] ∧ rest = [] ∨ s.agenda = .move .controller :: rest)
      (h : SessionStep Config.params (s.begin rest) t)
  | accepted (n : Nat) (r : Request) (rest : List Event)
      (ha : s.agenda = [] ∧ rest = [] ∨ s.agenda = .move (.accept n) :: rest)
      (hst : s.c.st = .idle) (hr : s.waiting[n]? = some r) (hw : r.wordCount ≤ Config.params.bufDepth)
      (h : t = { s.begin rest with c := s.c.accepted r, waiting := s.waiting.eraseIdx n })
  | completed (rest : List Event) (ha : s.agenda = .move .completion :: rest) (hq : s.v.acquiring = true)
      (h : t = ((s.begin rest).withV { s.v with
        buf := s.v.buf.fill Config.params.sampleBase s.draws Config.params.bufDepth
        acquiring := false }).drew Config.params.bufDepth)
  | taken (rest : List Event) (ha : s.agenda = .move .take :: rest) (hr : s.c.result ≠ .none)
      (h : t = ((s.begin rest).withC { s.c with result := .none }).answering (.result s.c.result))
  | systemReset (rest : List Event) (ha : s.agenda = .move .systemReset :: rest)
      (h : t = systemReset (s.begin rest))
  | controllerReset (rest : List Event) (ha : s.agenda = .move .controllerReset :: rest)
      (h : t = controllerReset (s.begin rest))

theorem unattended_cases {s t : State} (ha : s.agenda = []) (h : unattended Config.params (s.begin []) = .next t) :
    Stepped s t := by
  rw [unattended] at h
  split at h
  · rename_i hst
    split at h
    · injection h with h; exact .waited ha hst h.symm
    · obtain ⟨r, hst, hr, hw, rfl⟩ := acceptWaiting_cases h
      exact .accepted 0 r [] (.inl ⟨ha, rfl⟩) hst hr hw rfl
  all_goals exact .session [] (.inl ⟨ha, rfl⟩) (controllerStep_cases Laws.Config.params_valid h)

theorem moveStep_cases {m : Move} {rest : List Event} {s t : State} (ha : s.agenda = .move m :: rest)
    (h : moveStep Config.params m (s.begin rest) = .next t) : Stepped s t := by
  cases m with
  | controller => exact .session rest (.inr ha) (controllerStep_cases Laws.Config.params_valid h)
  | accept n =>
    obtain ⟨r, hst, hr, hw, rfl⟩ := acceptWaiting_cases h
    exact .accepted n r rest (.inr ha) hst hr hw rfl
  | completion =>
    obtain ⟨hq, rfl⟩ := completion_cases h
    exact .completed rest ha hq rfl
  | take =>
    obtain ⟨hr, rfl⟩ := takeResult_cases h
    exact .taken rest ha hr rfl
  | systemReset => injection h with h; exact .systemReset rest ha h.symm
  | controllerReset => injection h with h; exact .controllerReset rest ha h.symm

/-- What a step can do. -/
theorem step_cases {s t : State} (h : step s = .next t) : Stepped s t := by
  rw [step] at h
  split at h
  · rename_i ha; exact unattended_cases ha h
  · rename_i x rest ha
    split at h
    · rename_i i hd; exact .executed x i rest ha hd (exec_cases h)
    · cases h
  · rename_i m rest ha; exact moveStep_cases ha h

/-- The step of a named move. -/
theorem step_move {s : State} {m : Move} {rest : List Event} (ha : s.agenda = .move m :: rest) :
    step s = moveStep Config.params m (s.begin rest) := by
  rw [step]; simp only [ha]

/-- The step of a session left to itself. -/
theorem step_unattended {s : State} (ha : s.agenda = []) (hst : s.c.st ≠ .idle) :
    step s = controllerStep Config.params (s.begin []) := by
  rw [step]
  simp only [ha, unattended, State.begin_c]
  cases hc : s.c.st <;> simp_all

end Sys2Proof.Machine
end

