-- ==== Sys2Proof/Tests/Slice0.lean ====
section
/-! SUPPORT. Tests of the model, and a witness for every statement that has hypotheses. Expected values are those of
spec/95_test_vectors.md (the vector is named at each) or written out from the rule named; the configuration `bench` is that
file's illustrative one and stands in no definition. -/

namespace Sys2Proof.Tests

open Sys2Proof.Machine

/-! ## The bench -/

/-- The illustrative configuration of spec/95_test_vectors.md, its physical values written as numbers. -/
def bench : Params Nat where
  sampleBase := 0x1000
  bufDepth := 4
  pollLimit := 3
  layout := .genericDual
  bandEdge := ⟨500, 1000, 1500, 2000, 2500, 3000⟩
  physZero := 0
  cal := (List.range 2048).map (fun k => 1500000 + k)
  edgeThreshold := 400
  winHalf := 100
  heightThreshold := 1000
  indexBound := 1500
  lutIndexMode := .raw

/-- A sample written as an integer. -/
def smp (v : Int) : S16 := if h : -32768 ≤ v ∧ v ≤ 32767 then ⟨v, h⟩ else ⟨0, by omega⟩

/-- Samples written as integers. -/
def smps (vs : List Int) : List S16 := vs.map smp

/-- A session's registers, with nothing read yet. -/
def ctl (st : Session) (ph : Phase) (words polls : Nat) (dac : Option Half) : Controller :=
  { st := st, ph := ph, req := ⟨.oneShot, words, dac⟩, polls := polls, idx := 0, raw := [], seq := 4, diag := 0,
    result := .none }

/-- A state with the given device and session and the given moves to come. -/
def bed (v : Device) (c : Controller) (moves : List Event) : State :=
  { v := v, c := c, k := ⟨0, false, 0, 0, smp 0, 0, []⟩, waiting := [], answer := .none, bus := none, agenda := moves,
    draws := 0 }

/-- A device at rest with an empty buffer. -/
def rest : Device := ⟨0, false, none, []⟩

/-- A device that acquires, its line low again. -/
def busyDev : Device := ⟨0, true, none, []⟩

/-- A device at rest whose first cell holds 0x0AF00A28 under this machine's own base. -/
def fullDev : Device := ⟨0, false, none, Memory.writeWord [] (Config.params.sampleBase + 4 * 0) 0x0AF00A28⟩

/-- A state in `Idle` with the given device. -/
def idleBed (v : Device) : State := bed v (ctl .idle .tDac 0 0 none) []

/-! ## Well-formedness: each check refuses an ill-formed operand -/

theorem test_bench_valid : bench.Valid :=
  ⟨by decide, by decide, by decide, by decide, by decide, by decide +kernel, by decide, by decide⟩
theorem test_wellFormed_rdSample : (Instr.rdSample 3).wellFormed bench = true ∧ (Instr.rdSample 4).wellFormed bench = false := by
  decide
theorem test_wellFormed_wrSample : (Instr.wrSample 4 0).wellFormed bench = false := by decide
theorem test_wellFormed_acquire :
    (Instr.acquire ⟨.oneShot, 4, none⟩).wellFormed bench = true ∧
    (Instr.acquire ⟨.oneShot, 5, none⟩).wellFormed bench = false := by decide
theorem test_wellFormed_encode : (Instr.encode ⟨smps [1, 2], smps [3]⟩ .genericDual).wellFormed bench = false := by decide
theorem test_wellFormed_classifySkip : (Instr.classifySkip [] 0 0).wellFormed bench = false := by decide
theorem test_wellFormed_lutRead : (Instr.lutRead 2048).wellFormed bench = false := by decide +kernel
theorem test_wellFormed_locate : (Instr.locate (smps [0, 5, 0]) (smps [0, 0])).wellFormed bench = false := by decide

/-! ## Decoding: words written out bit by bit (R91, R92, R108), least significant byte first -/

/-- `0x10000` (PG1): 1 0000000000000000. -/
theorem test_decode_wrTrigger (v : Word) :
    decode bench (.reg [0b00000000#8, 0b00000000#8, 0b00000001#8] 4 (some v)) = .ok (.wrTrigger v) := rfl
/-- `0x00000` (PG1): 0 0000000000000000. -/
theorem test_decode_rdTrigger :
    decode bench (.reg [0b00000000#8, 0b00000000#8, 0b00000000#8] 4 none) = .ok .rdTrigger := rfl
/-- `0x00008` (PG1): 0 0000000000001000. -/
theorem test_decode_rdBusy :
    decode bench (.reg [0b00001000#8, 0b00000000#8, 0b00000000#8] 4 none) = .ok .rdBusy := rfl
/-- 1 0000000000001000 (R92). -/
theorem test_decode_wrBusy (v : Word) :
    decode bench (.reg [0b00001000#8, 0b00000000#8, 0b00000001#8] 4 (some v)) = .ok (.wrBusy v) := rfl
/-- `0x10010` (PG1): 1 0000000000010000. -/
theorem test_decode_wrDac (v : Word) :
    decode bench (.reg [0b00010000#8, 0b00000000#8, 0b00000001#8] 4 (some v)) = .ok (.wrDac v) := rfl
/-- `0x01004` (PG1): 0 0001000000000100, sample word 1. -/
theorem test_decode_rdSample :
    decode bench (.reg [0b00000100#8, 0b00010000#8, 0b00000000#8] 4 none) = .ok (.rdSample 1) := rfl
/-- 0 0000000000010000, reserved (R111). -/
theorem test_decode_rdDac : decode bench (.reg [0b00010000#8, 0b00000000#8, 0b00000000#8] 4 none) = .ok .rdDac := rfl
/-- 1 0001000000001100, sample word 3, reserved (R111). -/
theorem test_decode_wrSample (v : Word) :
    decode bench (.reg [0b00001100#8, 0b00010000#8, 0b00000001#8] 4 (some v)) = .ok (.wrSample 3 v) := rfl
theorem test_decode_acquire (r : Request) : decode bench (.cmd [0b00000001#8] (.request r)) = .ok (.acquire r) := rfl
theorem test_decode_decode (raw : List Word) (l : Layout) :
    decode bench (.cmd [0b00000010#8] (.rawBlock raw l)) = .ok (.decode raw l) := rfl
theorem test_decode_encode (b : ChannelBlock) (l : Layout) :
    decode bench (.cmd [0b00000011#8] (.channels b l)) = .ok (.encode b l) := rfl
theorem test_decode_classifyHyst (xs : List S16) (m n : Nat) :
    decode bench (.cmd [0b00000100#8] (.hysteresis xs m n)) = .ok (.classifyHyst xs m n) := rfl
theorem test_decode_classifySkip (xs : List S16) (m n : Nat) :
    decode bench (.cmd [0b00000101#8] (.skipWindow xs m n)) = .ok (.classifySkip xs m n) := rfl
theorem test_decode_bucket (m : Nat) : decode bench (.cmd [0b00000110#8] (.magnitude m)) = .ok (.bucket m) := rfl
theorem test_decode_lutRead (k : Nat) : decode bench (.cmd [0b00000111#8] (.index k)) = .ok (.lutRead k) := rfl
theorem test_decode_locate (s t : List S16) :
    decode bench (.cmd [0b00001000#8] (.waveforms s t)) = .ok (.locate s t) := rfl
/-- VT24: RD 0x14 and RD 0x1010, the first word beyond the buffer, are unassigned. -/
theorem test_decode_unassigned :
    decode bench (presentRead 0x14) = .error .unassigned ∧ decode bench (presentRead 0x1010) = .error .unassigned :=
  ⟨rfl, rfl⟩
/-- VT25: RD 0x2 and RD 0x1001 are misaligned. -/
theorem test_decode_misaligned :
    decode bench (presentRead 0x2) = .error .misaligned ∧ decode bench (presentRead 0x1001) = .error .misaligned :=
  ⟨rfl, rfl⟩

/-! ## The meanings, on vectors of the spec -/

/-- VT5: bit 0 is 0, bits 31:1 are ignored. VT6: bit 0 is 1. -/
theorem test_wrTrigger_bits :
    exec (.wrTrigger 0xFFFFFFFE) (idleBed rest) = .next { idleBed rest with bus := some ⟨.wr, 0x0, 0xFFFFFFFE⟩ } ∧
    exec (.wrTrigger 3) (idleBed rest) =
      .next { idleBed ⟨1, true, none, []⟩ with bus := some ⟨.wr, 0x0, 3⟩ } := ⟨rfl, rfl⟩
/-- VT4: 1 to 1 is no edge. -/
theorem test_wrTrigger_no_edge :
    exec (.wrTrigger 1) (idleBed ⟨1, false, none, []⟩) =
      .next { idleBed ⟨1, false, none, []⟩ with bus := some ⟨.wr, 0x0, 1⟩ } := rfl
/-- VT9. -/
theorem test_rdTrigger_high : exec .rdTrigger (idleBed ⟨1, true, none, []⟩) =
    .next { idleBed ⟨1, true, none, []⟩ with answer := .word 1, bus := some ⟨.rd, 0x0, 1⟩ } := rfl
/-- VT11. -/
theorem test_rdBusy_rest : exec .rdBusy (idleBed rest) =
    .next { idleBed rest with answer := .word 0, bus := some ⟨.rd, 0x8, 0⟩ } := rfl
/-- VT12: still acquiring. -/
theorem test_wrBusy_ignored : exec (.wrBusy 0) (idleBed busyDev) =
    .next { idleBed busyDev with bus := some ⟨.wr, 0x8, 0⟩ } := rfl
/-- VT18: the whole word is tested, not its low half. VT16. -/
theorem test_wrDac_range :
    exec (.wrDac 0x000107D0) (idleBed ⟨0, false, some 1000, []⟩) =
      .next { idleBed ⟨0, false, some 1000, []⟩ with bus := some ⟨.wr, 0x10, 0x000107D0⟩ } ∧
    exec (.wrDac 0x0000FFFF) (idleBed ⟨0, false, some 1000, []⟩) =
      .next { idleBed ⟨0, false, some 65535, []⟩ with bus := some ⟨.wr, 0x10, 0x0000FFFF⟩ } := ⟨rfl, rfl⟩
/-- VT20, from the bytes of R64: the low byte at the lowest offset. -/
theorem test_readSample_bytes :
    (readSample bench 0 (idleBed ⟨0, false, none, [(0x1000, 0x28), (0x1001, 0x0A), (0x1002, 0xF0), (0x1003, 0x0A)]⟩)).1 =
      0x0AF00A28 := by decide
/-- R142's example: `C.seq = 4`, `ACQUIRE 1024, dac=2000` (under a depth that holds it) gives `C.seq = 5`, phase `T_DAC`. -/
theorem test_accept_example :
    accept { bench with bufDepth := 1024 } ⟨.oneShot, 1024, some 2000⟩ (idleBed rest) =
      .next { idleBed rest with
        c := { ctl .triggering .tDac 1024 0 (some 2000) with seq := 5 } } := rfl
/-- VA6: beyond the buffer. -/
theorem test_accept_refused :
    accept bench ⟨.oneShot, 5, none⟩ (idleBed rest) = .refused .wordCountBeyondBuffer := rfl
/-- VA3: a zero on the third poll of three is a success. -/
theorem test_poll_zero_last :
    controllerStep bench (bed rest (ctl .busy .tDiag 2 2 none) []) =
      .next { bed rest (ctl .ready .tDiag 2 3 none) [] with bus := some ⟨.rd, 0x8, 0⟩ } := rfl
/-- VA4: a nonzero word on the third poll of three ends the session. -/
theorem test_poll_timeout :
    afterPoll bench 0x80000000 (bed busyDev (ctl .busy .tDiag 2 3 none) []) =
      bed busyDev { ctl .idle .tDiag 2 3 none with result := .condition 4 .acquisitionTimeout } [] := rfl
/-- R154's example. -/
theorem test_deliver_example :
    (deliver bench (bed rest { ctl .ready .tDiag 1 1 none with raw := [0x0AF00A28], idx := 1 } [])).c.result =
      .block 4 ⟨smps [2600], smps [2800]⟩ := by decide
/-- VD2, VD3 and VD8, both layouts. -/
theorem test_decode_vectors :
    decodeBlock [0xFFFF0001, 0x7FFF8000, 0xFFFFFFFF] .genericDual = ⟨smps [1, -32768, -1], smps [-1, 32767, -1]⟩ ∧
    decodeBlock [0xFFFF0001, 0x7FFF8000, 0xFFFFFFFF] .signalTrigger = ⟨smps [-1, 32767, -1], smps [1, -32768, -1]⟩ := by
  decide
/-- VE2, both layouts. -/
theorem test_encode_vectors :
    encodeBlock ⟨smps [-1, -32768], smps [0, 32767]⟩ .genericDual = [0x0000FFFF, 0x7FFF8000] ∧
    encodeBlock ⟨smps [-1, -32768], smps [0, 32767]⟩ .signalTrigger = [0xFFFF0000, 0x80007FFF] := by decide
/-- A classifier as any earlier operation may have left it. -/
def stale : Classifier := ⟨9, true, 7, 7, smp 77, 5, [⟨1, 1, smp 1, 1⟩]⟩
/-- VH3: a tie keeps the earlier peak, and a sample inside a spike is no onset. -/
theorem test_classifyHyst_tie :
    (hystRun bench.bandEdge 2500 2065 stale.start (smps [0, 2600, 2800, 2800, 2100, 2600, 0])).events =
      [⟨1, 2, smp 2800, 5⟩] := by decide
/-- VH5: 2065 closes, 2066 is no onset, 2501 is. -/
theorem test_classifyHyst_edges :
    (hystRun bench.bandEdge 2500 2065 stale.start (smps [2600, 2065, 2066, 2501, 0])).events =
      [⟨0, 0, smp 2600, 5⟩, ⟨3, 3, smp 2501, 5⟩] := by decide
/-- VK7: a tie across signs; the window's four samples include the onset. -/
theorem test_classifySkip_tie :
    (skipRun bench.bandEdge 2500 4 stale.start (smps [0, 2600, -2900, 2900, 0, 0, 0])).events =
      [⟨1, 2, smp (-2900), 5⟩] := by decide
/-- VK9: a long excursion is cut into windows, and the last, unfinished one gives nothing. -/
theorem test_classifySkip_windows :
    (skipRun bench.bandEdge 2500 3 stale.start (smps [0, 2600, 2600, 2600, 2600, 2600, 2600])).events =
      [⟨1, 1, smp 2600, 5⟩, ⟨4, 4, smp 2600, 5⟩] := by decide
/-- The table of 95_test_vectors.md section 2.6, at its edges. -/
theorem test_bucket_edges :
    [0, 499, 500, 2499, 2500, 2999, 3000, 32768].map (bucketOf bench.bandEdge) = [0, 0, 1, 4, 5, 5, 6, 6] := by decide
/-- `LUT.READ 800 = 1500800`; 2048 is outside. -/
theorem test_lut_entries : bench.cal[800]? = some 1500800 ∧ bench.cal[2048]? = none := by decide +kernel
/-- VL19: short lists, a maximum and no edge. -/
theorem test_locate_short :
    locateResult { bench with heightThreshold := 1 } (smps [0, 5, 0]) (smps [0, 0, 0]) =
      ⟨false, (0, 0), [1], [smp 5], none⟩ := by decide
/-- VL1, VL2, VL6 and VL8, from the edge and the candidates on. -/
theorem test_locate_calibration :
    calibrateAll bench 100 [800, 1300] = some (1500800, 1501300) ∧
    calibrateAll { bench with lutIndexMode := .rebased } 100 [800, 1300] = some (1500700, 1501200) ∧
    calibrateAll { bench with indexBound := 1200 } 100 [800, 1300] = none ∧
    calibrateAll { bench with cal := bench.cal.take 1300 } 100 [800, 1300] = none := by decide +kernel

/-- VL1's signal, cut after its second peak: 3000 at 800, 2500 at 1300. -/
def twoPeaks : List S16 :=
  List.replicate 800 (smp 0) ++ [smp 3000] ++ List.replicate 499 (smp 0) ++ [smp 2500] ++ List.replicate 100 (smp 0)
/-- VL1's trigger, cut to the same length: 1000 from 101 on. -/
def oneEdge : List S16 := List.replicate 101 (smp 0) ++ List.replicate 1300 (smp 1000)
/-- VL1: a valid result. -/
theorem test_locate_valid :
    locateResult bench twoPeaks oneEdge =
      ⟨true, (1500800, 1501300), [800, 1300], [smp 3000, smp 2500], some ((650, 850), (1250, 1450))⟩ := by decide +kernel

/-! ## Witnesses: concrete states and operands that meet each statement's hypotheses together -/

/-- Encoding: a legal configuration, and the last sample word, the greatest request and the last table entry in it. -/
theorem test_witness_DecodeOfEncodeIsIdentity : bench.Valid ∧ (Instr.rdSample 3).wellFormed bench = true ∧
    (Instr.acquire ⟨.continuous, 4, some 0⟩).wellFormed bench = true ∧ (Instr.lutRead 2047).wellFormed bench = true :=
  ⟨test_bench_valid, by decide, by decide, by decide +kernel⟩
theorem test_witness_EncodingIsUnique :
    bench.Valid ∧ decode bench (.reg [0x0C#8, 0x10#8, 0x00#8] 4 none) = .ok (.rdSample 3) := ⟨test_bench_valid, rfl⟩
theorem test_witness_ReservedSelectorRefused :
    let s (op : Byte) := bed rest (ctl .idle .tDac 0 0 none) [.present (.cmd [op] (.magnitude 0))]
    ((s 0x00#8).agenda = .present (.cmd [0x00#8] (.magnitude 0)) :: [] ∧ (0x00#8).toNat = 0) ∧
    ((s 0x09#8).agenda = .present (.cmd [0x09#8] (.magnitude 0)) :: [] ∧ 9 ≤ (0x09#8).toNat) ∧
    ((s 0xFF#8).agenda = .present (.cmd [0xFF#8] (.magnitude 0)) :: [] ∧ 9 ≤ (0xFF#8).toNat) := by
  exact ⟨⟨rfl, rfl⟩, ⟨rfl, by decide⟩, ⟨rfl, by decide⟩⟩
/-- A 16-bit read; a read at 1; a read at 4, and a write just beyond the buffer. -/
theorem test_witness_ReservedTransactionRefused :
    let s (dir : Dir) (off width : Nat) (data : Option Word) :=
      bed rest (ctl .idle .tDac 0 0 none) [.present (.reg (descriptorBytes (packDescriptor dir off)) width data)]
    ((s .rd 0x8 2 none).agenda = .present (.reg (descriptorBytes (packDescriptor .rd 0x8)) 2 none) :: [] ∧
      ((none : Option Word).isSome = true ↔ Dir.rd = .wr) ∧ 2 ≠ 4) ∧
    ((s .rd 1 4 none).agenda = .present (.reg (descriptorBytes (packDescriptor .rd 1)) 4 none) :: [] ∧ 1 % 4 ≠ 0) ∧
    ((s .rd 4 4 none).agenda = .present (.reg (descriptorBytes (packDescriptor .rd 4)) 4 none) :: [] ∧
      ∀ i, i < Config.params.bufDepth → 4 ≠ Config.params.sampleBase + 4 * i) ∧
    ((s .wr (Config.params.sampleBase + 4 * Config.params.bufDepth) 4 (some 0)).agenda =
        .present (.reg (descriptorBytes (packDescriptor .wr
          (Config.params.sampleBase + 4 * Config.params.bufDepth))) 4 (some 0)) :: [] ∧
      (Config.params.sampleBase + 4 * Config.params.bufDepth) % 4 = 0 ∧
      ∀ i, i < Config.params.bufDepth →
        Config.params.sampleBase + 4 * Config.params.bufDepth ≠ Config.params.sampleBase + 4 * i) := by
  have h1 := Laws.Config.params_valid.base_above
  have h2 := Laws.Config.params_valid.base_aligned
  exact ⟨⟨rfl, by decide, by decide⟩, ⟨rfl, by decide⟩, ⟨rfl, fun i _ => by omega⟩, ⟨rfl, by omega, fun i _ => by omega⟩⟩
theorem test_witness_StepRunsDecodedOperation :
    let s := bed rest (ctl .busy .tDiag 1 0 none) [.present (.cmd [0x06#8] (.magnitude 5))]
    s.agenda = .present (.cmd [0x06#8] (.magnitude 5)) :: [] ∧
    decode Config.params (.cmd [0x06#8] (.magnitude 5)) = .ok (.bucket 5) := ⟨rfl, rfl⟩

/-- A rise at rest, a write of 1 on a high line while acquiring, a write of 0 while acquiring. -/
theorem test_witness_TriggerWriteStartsAcquisition :
    ¬ ((1 : Word).getLsbD 0 = true ∧ rest.trig = 0 ∧ rest.acquiring = true) ∧
    ¬ ((1 : Word).getLsbD 0 = true ∧ (⟨1, true, none, []⟩ : Device).trig = 0 ∧ true = true) ∧
    ¬ ((0 : Word).getLsbD 0 = true ∧ busyDev.trig = 0 ∧ busyDev.acquiring = true) := by decide
/-- A rise while acquiring. -/
theorem test_witness_TriggerWriteStartsAcquisition_refused :
    (0xFFFFFFFF : Word).getLsbD 0 = true ∧ (idleBed busyDev).v.trig = 0 ∧ (idleBed busyDev).v.acquiring = true := by decide
theorem test_witness_BusyReadTellsAcquiring :
    (idleBed rest).v.acquiring = false ∧ (idleBed busyDev).v.acquiring = true := ⟨rfl, rfl⟩
theorem test_witness_DacWriteSetsLegalLevel :
    (1 ≤ (1 : Word).toNat ∧ (1 : Word).toNat ≤ 65535) ∧ (65535 : Word).toNat ≤ 65535 ∧ (0 : Word).toNat = 0 ∧
    65535 < (65536 : Word).toNat := by decide
/-- A filled cell at rest; a cell never filled; a device that acquires; the last cell of the buffer and the first beyond. -/
theorem test_witness_SampleReadReturnsCell :
    0 < Config.params.bufDepth ∧ fullDev.acquiring = false ∧
    fullDev.buf.readWord (Config.params.sampleBase + 4 * 0) = some 0x0AF00A28 ∧
    rest.buf.readWord (Config.params.sampleBase + 4 * 0) = none ∧ busyDev.acquiring = true ∧
    Config.params.bufDepth - 1 < Config.params.bufDepth ∧ Config.params.bufDepth ≤ Config.params.bufDepth := by
  have := Laws.Config.params_valid.depth_pos
  exact ⟨this, rfl, Memory.readWord_writeWord_same _ _ _, rfl, rfl, by omega, Nat.le_refl _⟩
theorem test_witness_RegisterTransactionFrame :
    Instr.wrDac 5 ∈ [Instr.wrTrigger 5, .rdTrigger, .rdBusy, .wrBusy 5, .wrDac 5, .rdSample 0] ∧
    exec (.wrDac 5) (idleBed rest) = .next { idleBed ⟨0, false, some 5, []⟩ with bus := some ⟨.wr, 0x10, 5⟩ } :=
  ⟨by simp, rfl⟩
theorem test_witness_CompletionFillsBuffer :
    let s (v : Device) := bed v (ctl .busy .tDiag 1 0 none) [.move .completion]
    (s busyDev).agenda = .move .completion :: [] ∧ (s busyDev).v.acquiring = true ∧
    (s rest).agenda = .move .completion :: [] ∧ (s rest).v.acquiring = false := ⟨rfl, rfl, rfl, rfl⟩

/-- The empty request, the greatest one, one word more, and a session. -/
theorem test_witness_AcquireAcceptedOrWaits :
    (idleBed rest).c.st = .idle ∧ (⟨.oneShot, 0, none⟩ : Request).wordCount ≤ Config.params.bufDepth ∧
    (⟨.oneShot, Config.params.bufDepth, some 0⟩ : Request).wordCount ≤ Config.params.bufDepth ∧
    Config.params.bufDepth < (⟨.oneShot, Config.params.bufDepth + 1, none⟩ : Request).wordCount ∧
    (bed rest (ctl .ready .tDiag 1 0 none) []).c.st ≠ .idle :=
  ⟨rfl, Nat.zero_le _, Nat.le_refl _, Nat.lt_succ_self _, by decide⟩
theorem test_witness_WaitingRequestAccepted :
    let r : Request := ⟨.oneShot, 0, some 7⟩
    let s (st : Session) := { bed rest (ctl st .tDac 0 0 none) [.move (.accept 1)] with waiting := [⟨.oneShot, 0, none⟩, r] }
    (s .idle).agenda = .move (.accept 1) :: [] ∧ (s .idle).waiting[1]? = some r ∧
    r.wordCount ≤ Config.params.bufDepth ∧ (s .idle).c.st = .idle ∧ (s .busy).c.st ≠ .idle ∧
    (s .idle).waiting[2]? = none := ⟨rfl, rfl, Nat.zero_le _, rfl, by decide, rfl⟩
/-- One word more than the buffer holds. -/
theorem test_witness_WaitingRequestAccepted_beyond :
    let r : Request := ⟨.oneShot, Config.params.bufDepth + 1, none⟩
    let s := { bed rest (ctl .idle .tDac 0 0 none) [.move (.accept 0)] with waiting := [r] }
    s.agenda = .move (.accept 0) :: [] ∧ s.c.st = .idle ∧ s.waiting[0]? = some r ∧
    Config.params.bufDepth < r.wordCount := ⟨rfl, rfl, rfl, Nat.lt_succ_self _⟩
/-- In `Idle` with nothing waiting, with the empty request, with one word more than the buffer holds; and in a session. -/
theorem test_witness_UnattendedStep :
    let s (waiting : List Request) := { idleBed rest with waiting := waiting }
    ((s []).agenda = [] ∧ (s []).c.st = .idle ∧ (s []).waiting = []) ∧
    ((s [⟨.oneShot, 0, none⟩]).agenda = [] ∧ (s [⟨.oneShot, 0, none⟩]).waiting = ⟨.oneShot, 0, none⟩ :: [] ∧
      (⟨.oneShot, 0, none⟩ : Request).wordCount ≤ Config.params.bufDepth) ∧
    ((s [⟨.oneShot, Config.params.bufDepth + 1, none⟩]).waiting = ⟨.oneShot, Config.params.bufDepth + 1, none⟩ :: [] ∧
      Config.params.bufDepth < (⟨.oneShot, Config.params.bufDepth + 1, none⟩ : Request).wordCount) ∧
    (bed rest (ctl .busy .tDiag 1 0 none) []).agenda = [] ∧ (bed rest (ctl .busy .tDiag 1 0 none) []).c.st ≠ .idle :=
  ⟨⟨rfl, rfl, rfl⟩, ⟨rfl, rfl, Nat.zero_le _⟩, ⟨rfl, Nat.lt_succ_self _⟩, rfl, by decide⟩
/-- A level that is written and the level 0. -/
theorem test_witness_DacPhaseWritesLevel :
    let s (d : Half) := bed rest (ctl .triggering .tDac 0 0 (some d)) [.move .controller]
    (s 2000).agenda = .move .controller :: [] ∧ (s 2000).c.st = .triggering ∧ (s 2000).c.ph = .tDac ∧
    (s 2000).c.req.dacValue = some 2000 ∧ (s 0).c.req.dacValue = some 0 := ⟨rfl, rfl, rfl, rfl, rfl⟩
theorem test_witness_HighPhaseStrobes :
    let s (v : Device) := bed v (ctl .triggering .tHigh 0 0 none) [.move .controller]
    (s rest).agenda = .move .controller :: [] ∧ (s rest).c.st = .triggering ∧ (s rest).c.ph = .tHigh ∧
    ¬ ((s rest).v.trig = 0 ∧ (s rest).v.acquiring = true) ∧
    ¬ ((s ⟨1, true, none, []⟩).v.trig = 0 ∧ (s ⟨1, true, none, []⟩).v.acquiring = true) ∧
    (s busyDev).v.trig = 0 ∧ (s busyDev).v.acquiring = true :=
  ⟨rfl, rfl, rfl, by decide, by decide, rfl, rfl⟩
theorem test_witness_LowPhaseLowersLine :
    let s := bed ⟨1, true, none, []⟩ (ctl .triggering .tLow 0 0 none) [.move .controller]
    s.agenda = .move .controller :: [] ∧ s.c.st = .triggering ∧ s.c.ph = .tLow := ⟨rfl, rfl, rfl⟩
theorem test_witness_DiagPhaseEntersBusy :
    let s := bed busyDev (ctl .triggering .tDiag 0 0 none) [.move .controller]
    s.agenda = .move .controller :: [] ∧ s.c.st = .triggering ∧ s.c.ph = .tDiag := ⟨rfl, rfl, rfl⟩
theorem test_witness_ZeroPollEndsBusy :
    let s := bed rest (ctl .busy .tDiag 0 2 none) [.move .controller]
    s.agenda = .move .controller :: [] ∧ s.c.st = .busy ∧ s.v.acquiring = false := ⟨rfl, rfl, rfl⟩
/-- At the last poll, and at one that is not the last. -/
theorem test_witness_NonzeroPollCountsOrTimesOut :
    let s (n : Nat) := bed busyDev (ctl .busy .tDiag 0 n none) [.move .controller]
    (s 0).agenda = .move .controller :: [] ∧ (s 0).c.st = .busy ∧ (s 0).v.acquiring = true ∧
    (s (Config.params.pollLimit - 1)).c.polls + 1 = Config.params.pollLimit ∧
    (s Config.params.pollLimit).c.polls + 1 ≠ Config.params.pollLimit := by
  have := Laws.Config.params_valid.limit_pos
  exact ⟨rfl, rfl, rfl, Nat.sub_add_cancel this, Nat.succ_ne_self _⟩
theorem test_witness_ReadyReadsNextSample :
    let s := bed fullDev (ctl .ready .tDiag 1 1 none) [.move .controller]
    s.agenda = .move .controller :: [] ∧ s.c.st = .ready ∧ s.c.idx < s.c.req.wordCount ∧
    s.c.req.wordCount ≤ Config.params.bufDepth ∧ s.v.acquiring = false ∧
    s.v.buf.readWord (Config.params.sampleBase + 4 * s.c.idx) = some 0x0AF00A28 :=
  ⟨rfl, rfl, by decide, Laws.Config.params_valid.depth_pos, rfl, Memory.readWord_writeWord_same _ _ _⟩
theorem test_witness_ReadyDeliversBlock :
    let s := bed fullDev { ctl .ready .tDiag 1 1 none with raw := [0x0AF00A28], idx := 1 } [.move .controller]
    s.agenda = .move .controller :: [] ∧ s.c.st = .ready ∧ s.c.idx = s.c.req.wordCount := ⟨rfl, rfl, rfl⟩
theorem test_witness_TakingClearsResult :
    let s (r : ResultPort) := bed rest { ctl .idle .tDac 0 0 none with result := r } [.move .take]
    (s (.condition 4 .acquisitionTimeout)).agenda = .move .take :: [] ∧
    (s (.condition 4 .acquisitionTimeout)).c.result ≠ .none ∧ (s .none).agenda = .move .take :: [] ∧
    (s .none).c.result = .none := ⟨rfl, by decide, rfl, rfl⟩

/-- The invariant at the bench's states in and out of a session. -/
theorem test_bed_inv (v : Device) (hv : v.buf = []) (moves : List Event) :
    (bed v (ctl .busy .tDiag 0 0 none) moves).Inv Config.params ∧ (bed v (ctl .idle .tDac 0 0 none) moves).Inv Config.params ∧
    (bed v (ctl .triggering .tHigh 0 0 none) moves).Inv Config.params := by
  have hl := Laws.Config.params_valid.limit_pos
  have hb : (bed v (ctl .busy .tDiag 0 0 none) moves).v.buf.wf ∧
      (bed v (ctl .busy .tDiag 0 0 none) moves).v.buf.inBuffer Config.params := by
    show v.buf.wf ∧ v.buf.inBuffer Config.params
    rw [hv]
    exact ⟨List.Pairwise.nil, fun c hc => (by cases hc)⟩
  exact ⟨⟨hb.1, hb.2, ⟨rfl, rfl, hl, rfl, Nat.zero_le _⟩, trivial⟩, ⟨hb.1, hb.2, rfl, trivial⟩,
    ⟨hb.1, hb.2, ⟨rfl, rfl, rfl, rfl, Nat.zero_le _, fun h => (by cases h)⟩, trivial⟩⟩
theorem test_witness_StepKeepsInvariant :
    let s := bed busyDev (ctl .busy .tDiag 0 0 none) [.present (.cmd [0x06#8] (.magnitude 5))]
    s.Inv Config.params ∧ ∃ t, step s = .next t := ⟨(test_bed_inv _ rfl _).1, _, rfl⟩
theorem test_witness_StepKeepsHandshake :
    let s := bed busyDev (ctl .busy .tDiag 0 0 none) [.present (.cmd [0x06#8] (.magnitude 5)), .move .completion]
    s.Inv Config.params ∧ s.Handshake Config.params ∧ ∃ t, step s = .next t :=
  ⟨(test_bed_inv _ rfl _).1, ⟨by decide, by decide, fun _ => .inl rfl, fun h => (by cases h)⟩, _, rfl⟩
theorem test_witness_GoodStateAtReset :
    ∀ e ∈ [Event.present (.cmd [0x01#8] (.request ⟨.oneShot, 0, none⟩)), .move .completion, .move .take],
      e.exclusive = true := by decide
theorem test_witness_SessionStepsDecrease :
    let s := bed rest (ctl .triggering .tHigh 0 0 none) []
    s.Inv Config.params ∧ s.c.st ≠ .idle ∧ ∃ t, controllerStep Config.params s = .next t :=
  ⟨(test_bed_inv _ rfl _).2.2, by decide, _, rfl⟩
/-- A session that goes on, and one that finds the device acquiring. -/
theorem test_witness_ControllerStopsOnlyAtStrobe :
    let s (v : Device) := bed v (ctl .triggering .tHigh 0 0 none) []
    ((s rest).Inv Config.params ∧ (s rest).c.st ≠ .idle) ∧ (s busyDev).Inv Config.params ∧ (s busyDev).c.st ≠ .idle :=
  ⟨⟨(test_bed_inv _ rfl _).2.2, by decide⟩, (test_bed_inv _ rfl _).2.2, by decide⟩
theorem test_witness_NeverCompletingDeviceTimesOut :
    let s := bed busyDev (ctl .busy .tDiag 1 0 none) []
    s.agenda = [] ∧ s.c.st = .busy ∧ s.v.acquiring = true ∧ s.c.polls < Config.params.pollLimit :=
  ⟨rfl, rfl, rfl, Laws.Config.params_valid.limit_pos⟩
/-- Without a level and with one. -/
theorem test_witness_SessionDeliversItsCapture :
    let r (d : Option Half) : Request := ⟨.oneShot, 1, d⟩
    let moves (d : Option Half) : List Event := .present (encode Config.params (.acquire (r d))) ::
      (List.replicate (if (r d).dacValue = none then 3 else 4) (.move .controller) ++ [.move .completion])
    let s (d : Option Half) := bed rest (ctl .idle .tDac 0 0 none) (moves d)
    ((r none).wordCount ≤ Config.params.bufDepth ∧ (s none).c.st = .idle ∧ (s none).v.trig = 0 ∧
      (s none).v.acquiring = false ∧ (s none).agenda = moves none) ∧
    (r (some 9)).wordCount ≤ Config.params.bufDepth ∧ (s (some 9)).agenda = moves (some 9) :=
  ⟨⟨Laws.Config.params_valid.depth_pos, rfl, rfl, rfl, rfl⟩, Laws.Config.params_valid.depth_pos, rfl⟩

theorem test_witness_DecodeSplitsWords : [(0x7FFF8000 : Word)][0]? = some 0x7FFF8000 := rfl
/-- VE2's lengths, with the sample pair at index 1; VE4's lengths. -/
theorem test_witness_EncodeJoinsSamples :
    let b : ChannelBlock := ⟨smps [-1, -32768], smps [0, 32767]⟩
    b.channelA.length = b.channelB.length ∧ b.channelA[1]? = some (smp (-32768)) ∧ b.channelB[1]? = some (smp 32767) ∧
    (⟨smps [1, 2], smps [3]⟩ : ChannelBlock).channelA.length ≠ (⟨smps [1, 2], smps [3]⟩ : ChannelBlock).channelB.length := by
  decide
theorem test_witness_DecodeInvertsEncode :
    (⟨smps [2600], smps [2800]⟩ : ChannelBlock).channelA.length = (⟨smps [2600], smps [2800]⟩ : ChannelBlock).channelB.length := by
  decide
/-- One sample for each clause, at the boundary of its range: 2500 and 2501 outside a spike; 2065, 2801 and 2800 inside. -/
theorem test_witness_HysteresisSampleRule :
    let k (inside : Bool) : Classifier := { stale with inSpike := inside, peakVal := smp 2800 }
    ((k false).inSpike = false ∧ (smp 2500).val.natAbs ≤ 2500 ∧ 2500 < (smp 2501).val.natAbs) ∧
    (k true).inSpike = true ∧ (smp 2065).val.natAbs ≤ 2065 ∧ 2065 < (smp 2801).val.natAbs ∧
    (k true).peakVal.val.natAbs < (smp 2801).val.natAbs ∧ (smp 2800).val.natAbs ≤ (k true).peakVal.val.natAbs := by decide
/-- One sample for each clause: 2500 and 2501 outside a spike, for windows of one sample and of two; inside, 2801 and 2800,
before the window's last sample and at it (the count is 5). -/
theorem test_witness_SkipSampleRule :
    let k (inside : Bool) : Classifier := { stale with inSpike := inside, peakVal := smp 2800 }
    ((k false).inSpike = false ∧ (smp 2500).val.natAbs ≤ 2500 ∧ 2500 < (smp 2501).val.natAbs ∧ 2 ≠ 1) ∧
    (k true).inSpike = true ∧ (k true).cnt + 1 ≠ 7 ∧ (k true).cnt + 1 = 6 ∧
    (k true).peakVal.val.natAbs < (smp 2801).val.natAbs ∧ (smp 2800).val.natAbs ≤ (k true).peakVal.val.natAbs := by decide
theorem test_witness_ClassifySkipCompletes : 1 ≤ 1 ∧ 0 = 0 := ⟨Nat.le_refl _, rfl⟩
/-- Two spikes, of which the first closes at 1 and the second begins at 3. -/
theorem test_witness_HysteresisEventsAreSpikes :
    (hystRun bench.bandEdge 2500 2065 stale.start (smps [2600, 2065, 2066, 2501, 0])).events.length = 2 ∧
    (⟨0, 0, smp 2600, 5⟩ : SpikeEvent) ∈
      (hystRun bench.bandEdge 2500 2065 stale.start (smps [2600, 2065, 2066, 2501, 0])).events := by decide
theorem test_witness_SkipEventsAreWindows :
    1 ≤ 4 ∧ (⟨1, 2, smp (-2900), 5⟩ : SpikeEvent) ∈
      (skipRun bench.bandEdge 2500 4 stale.start (smps [0, 2600, -2900, 2900, 0, 0, 0])).events := by decide
theorem test_witness_BucketIsTheBand : Config.params.bandEdge.toList[5]? = some Config.params.bandEdge.e5 := rfl
/-- The last entry of the table and the first index beyond it. -/
theorem test_witness_LutReadReturnsEntry :
    (∃ x, Config.params.cal[Config.params.cal.length - 1]? = some x) ∧ Config.params.cal.length ≤ Config.params.cal.length := by
  have := Laws.Config.params_valid.cal_pos
  exact ⟨⟨_, List.getElem?_eq_getElem (by omega)⟩, Nat.le_refl _⟩
/-- An edge at the threshold's upper side, and none at it (VL17, VL18). -/
theorem test_witness_EdgeIndexIsFirstEdge :
    edgeIndex 400 (smps [0, 0, 401]) = some 1 ∧ edgeIndex 400 (smps [0, 0, 400]) = none := by decide
theorem test_witness_PeaksAreLocalMaxima : (1, smp 5) ∈ peaks 4 (smps [0, 5, 0]) ∧ peaks 5 (smps [0, 5, 0]) = [] := by decide
/-- VL21's lengths, and lists of one length with a valid result on the bench (VL1). -/
theorem test_witness_LocateFindsTwoCandidates :
    (smps [0, 5, 0]).length ≠ (smps [0, 0]).length ∧ twoPeaks.length = oneEdge.length ∧
    (locateResult bench twoPeaks oneEdge).valid = true :=
  ⟨by decide, by decide +kernel, by rw [test_locate_valid]⟩
/-- VL12's and VL13's ends: 650 and 1450 are inside, 649 is not, with the edge at 100. -/
theorem test_witness_WindowsFollowTheEdge :
    bench.Valid ∧ insideWindows (windowsAfter 100 100) 650 = true ∧ insideWindows (windowsAfter 100 100) 1450 = true ∧
    insideWindows (windowsAfter 100 100) 649 = false := ⟨test_bench_valid, by decide, by decide, by decide⟩
theorem test_witness_PureOperationFrame :
    Instr.bucket 5 ∈ [Instr.decode [] .genericDual, .encode ⟨[], []⟩ .genericDual, .classifyHyst [] 5 0,
      .classifySkip [] 5 0, .bucket 5, .lutRead 5, .locate [] []] ∧
    ∃ t, exec (.bucket 5) (idleBed rest) = .next t := ⟨by decide, _, rfl⟩

/-- Acceptance of an empty request needs nothing of the configuration. -/
theorem test_accept_empty (s : State) : ∃ t, accept Config.params ⟨.oneShot, 0, none⟩ s = .next t :=
  ⟨_, accept_ok s (Nat.zero_le _)⟩
/-- Accepted and waiting. -/
theorem test_witness_AcquireFrame :
    (∃ t, exec (.acquire ⟨.oneShot, 0, none⟩) (idleBed rest) = .next t) ∧
    ∃ t, exec (.acquire ⟨.oneShot, 0, none⟩) (bed rest (ctl .ready .tDiag 1 0 none) []) = .next t :=
  ⟨test_accept_empty (idleBed rest), _, rfl⟩
/-- A read that stays in `Ready`. -/
theorem test_witness_TransitionTable_ready :
    ∃ t, step (bed fullDev (ctl .ready .tDiag 1 1 none) [.move .controller]) = .next t ∧ t.c.st = .ready := by
  show ∃ t, stepSample Config.params (bed fullDev (ctl .ready .tDiag 1 1 none) []) = .next t ∧ t.c.st = .ready
  rw [stepSample, show sampleOff Config.params (bed fullDev (ctl .ready .tDiag 1 1 none) []).c.idx =
    sampleOff Config.params 0 from rfl, regRead_sample Laws.Config.params_valid Laws.Config.params_valid.depth_pos,
    readSample_cell (w := 0x0AF00A28) rfl (Memory.readWord_writeWord_same _ _ _)]
  exact ⟨_, rfl, rfl⟩
/-- The edge from `Idle`, for a request that is presented and for one that waits. -/
theorem test_witness_TransitionTable_idle :
    (∃ t, step (bed rest (ctl .idle .tDac 0 0 none) [.present (.cmd [0x01#8] (.request ⟨.oneShot, 0, none⟩))]) = .next t ∧
      t.c.st ≠ .idle) ∧
    ∃ t, step { idleBed rest with waiting := [⟨.oneShot, 0, none⟩] } = .next t ∧ t.c.st ≠ .idle :=
  have h := accept_ok (p := Config.params) (r := ⟨.oneShot, 0, none⟩) (idleBed rest) (Nat.zero_le _)
  ⟨⟨_, h, nofun⟩, _, h, nofun⟩
/-- The three ways out of a poll: to `Ready`, to `Idle` at the last one, and still in `Busy`. -/
theorem test_witness_TransitionTable_busy :
    (∃ t, step (bed rest (ctl .busy .tDiag 1 0 none) []) = .next t ∧ t.c.st = .ready) ∧
    (∃ t, step (bed busyDev (ctl .busy .tDiag 1 (Config.params.pollLimit - 1) none) []) = .next t ∧ t.c.st = .idle) ∧
    ∃ t, step (bed busyDev (ctl .busy .tDiag 1 Config.params.pollLimit none) [.move .controller]) = .next t ∧
      t.c.st = .busy :=
  ⟨⟨_, stepPoll_zero (p := Config.params) (s := bed rest (ctl .busy .tDiag 1 0 none) []) rfl, rfl⟩,
    ⟨_, stepPoll_timeout (p := Config.params) (s := bed busyDev (ctl .busy .tDiag 1 (Config.params.pollLimit - 1) none) []) rfl
      (Nat.sub_add_cancel Laws.Config.params_valid.limit_pos), rfl⟩,
    ⟨_, stepPoll_again (p := Config.params) (s := bed busyDev (ctl .busy .tDiag 1 Config.params.pollLimit none) []) rfl
      (Nat.succ_ne_self _), rfl⟩⟩
/-- The edges from `Triggering` and from `Ready`. -/
theorem test_witness_TransitionTable :
    (∃ t, step (bed busyDev (ctl .triggering .tDiag 0 0 none) []) = .next t ∧ t.c.st ≠ .triggering) ∧
    ∃ t, step (bed rest (ctl .ready .tDiag 0 1 none) []) = .next t ∧ t.c.st ≠ .ready :=
  ⟨⟨_, rfl, by decide⟩, _, rfl, by decide⟩
theorem test_witness_SequenceNumberAdvancesAtAcceptance :
    let s := bed rest (ctl .idle .tDac 0 0 none) [.present (.cmd [0x01#8] (.request ⟨.oneShot, 0, none⟩))]
    (∃ t, step s = .next t) ∧
    ∀ r, s.agenda ≠ .move .systemReset :: r ∧ s.agenda ≠ .move .controllerReset :: r :=
  ⟨test_accept_empty (bed rest (ctl .idle .tDac 0 0 none) []), fun _ => ⟨nofun, nofun⟩⟩
theorem test_witness_ResultAppearsAtSessionEnd :
    ∃ t, step (bed rest (ctl .ready .tDiag 0 1 none) []) = .next t ∧ t.c.result ≠ .none :=
  ⟨_, rfl, fun h => (by cases h)⟩
theorem test_witness_BufferChangesOnlyByCompletion :
    let s := bed busyDev (ctl .busy .tDiag 1 0 none) [.move .completion]
    ∃ t, step s = .next t ∧ t.v.buf.readWord (Config.params.sampleBase + 4 * 0) ≠
      s.v.buf.readWord (Config.params.sampleBase + 4 * 0) := by
  refine ⟨_, rfl, ?_⟩
  have := Memory.readWord_fill [] Config.params.sampleBase 0 Laws.Config.params_valid.depth_pos
  intro h
  have h2 : (Memory.fill [] Config.params.sampleBase 0 Config.params.bufDepth).readWord (Config.params.sampleBase + 4 * 0) =
    none := h
  rw [this] at h2
  cases h2
theorem test_witness_DacLevelChangesOnlyByLegalWrite :
    ∃ t, step (bed rest (ctl .idle .tDac 0 0 none) [.present (.reg [0x10#8, 0x00#8, 0x01#8] 4 (some 1))]) = .next t ∧
      t.v.dac ≠ none := ⟨_, rfl, nofun⟩
/-- The strobe, and the completion. -/
theorem test_witness_AcquiringFollowsStrobeAndCompletion :
    (∃ t, step (bed rest (ctl .triggering .tHigh 0 0 none) []) = .next t ∧ rest.acquiring = false ∧ t.v.acquiring = true) ∧
    ∃ t, step (bed busyDev (ctl .busy .tDiag 0 0 none) [.move .completion]) = .next t ∧ busyDev.acquiring = true ∧
      t.v.acquiring = false := ⟨⟨_, rfl, rfl, rfl⟩, _, rfl, rfl, rfl⟩
theorem test_witness_ResetMoves :
    (bed busyDev (ctl .busy .tDiag 0 0 none) [.move .systemReset]).agenda = .move .systemReset :: [] ∧
    (bed busyDev (ctl .busy .tDiag 0 0 none) [.move .controllerReset]).agenda = .move .controllerReset :: [] := ⟨rfl, rfl⟩

end Sys2Proof.Tests
end

section
/-! PROOFS. What a step does to the device and to the controller, said once each, and the statements about the state
(10_state.md) that follow: the invariant, the sequence number, the result port, the buffer, the output level, `acquiring`
and the values at reset. -/

namespace Sys2Proof.Machine

/-! ## The device's part of a step -/

/-- What one step, neither a completion nor a reset, makes of the device `d`, with its transaction on `bus`: nothing; the
line and perhaps the start of an acquisition (R121); an output level (R125). -/
inductive DeviceAccess (d : Device) (bus : Option Transaction) (d' : Device) : Prop where
  | untouched (h : d' = d)
  | line (w : Word) (hb : bus = some ⟨.wr, triggerOff, w⟩)
      (h : d' = { d with trig := triggerLevel w, acquiring := d.acquiring || risingEdge d.trig w })
  | level (w : Word) (hb : bus = some ⟨.wr, dacOff, w⟩) (ha : dacAccepts w = true)
      (h : d' = { d with dac := some (loHalf w) })

theorem Wrote.deviceAccess {s t : State} {off : Nat} {w : Word} (h : Wrote s off w t) :
    DeviceAccess s.v t.bus t.v := by
  have hb := h.bus_eq
  cases h with
  | nothing h => exact .untouched (by rw [h]; rfl)
  | line ho _ h => exact .line w (by rw [hb, ho]) (by rw [h]; rfl)
  | level ho ha h => exact .level w (by rw [hb, ho]) ha (by rw [h]; rfl)

theorem readBusy_device (s : State) : (readBusy s).2.v = s.v := by
  obtain ⟨n, hn⟩ := readBusy_cases s
  rw [hn]; rfl

theorem SessionStep.deviceAccess {p : Params Phys} {s t : State} (h : SessionStep p s t) :
    DeviceAccess s.v t.bus t.v := by
  cases h with
  | dac d u _ _ _ hw h => subst h; exact hw.deviceAccess
  | high u _ _ hw h => subst h; exact (writeTrigger_cases hw).deviceAccess
  | low u _ _ hw h => subst h; exact (writeTrigger_cases hw).deviceAccess
  | diag _ _ h => subst h; exact .untouched rfl
  | pollZero _ _ h => subst h; exact .untouched (readBusy_device s)
  | pollAgain _ _ _ h => subst h; exact .untouched (readBusy_device s)
  | timeout _ _ _ h => subst h; exact .untouched (readBusy_device s)
  | sample w n _ _ _ h => subst h; exact .untouched rfl
  | deliver _ _ h => subst h; exact .untouched rfl

theorem Executed.deviceAccess {p : Params Phys} {i : Instr} {s t : State} (h : Executed p i s t) :
    DeviceAccess s.v t.bus t.v := by
  cases h with
  | wrote off w h => exact h.deviceAccess
  | read h => obtain ⟨n, off, w, rfl⟩ := h; exact .untouched rfl
  | accepted r _ _ _ h => subst h; exact .untouched rfl
  | enqueued r _ _ h => subst h; exact .untouched rfl
  | pure h => obtain ⟨k, a, rfl⟩ := h; exact .untouched rfl

/-- What a step makes of the device: an access, a completion (R131), or the reset of the system (R280). -/
inductive DeviceStepped (s t : State) : Prop where
  | access (h : DeviceAccess s.v t.bus t.v)
  | completed (rest : List Event) (ha : s.agenda = .move .completion :: rest) (hq : s.v.acquiring = true)
      (h : t.v = { s.v with
        buf := s.v.buf.fill Config.params.sampleBase s.draws Config.params.bufDepth, acquiring := false })
  | reset (rest : List Event) (ha : s.agenda = .move .systemReset :: rest) (h : t.v = Device.reset)

theorem step_device {s t : State} (h : step s = .next t) : DeviceStepped s t := by
  cases step_cases h with
  | waited _ _ h => subst h; exact .access (.untouched rfl)
  | executed x i rest _ _ h => exact .access h.deviceAccess
  | session rest _ h => exact .access h.deviceAccess
  | accepted n r rest _ _ _ _ h => subst h; exact .access (.untouched rfl)
  | completed rest ha hq h => subst h; exact .completed rest ha hq rfl
  | taken rest _ _ h => subst h; exact .access (.untouched rfl)
  | systemReset rest ha h => subst h; exact .reset rest ha rfl
  | controllerReset rest _ h => subst h; exact .access (.untouched rfl)

/-! ## What an access leaves of the device -/

namespace DeviceAccess

variable {d d' : Device} {bus : Option Transaction}

theorem buf_eq (h : DeviceAccess d bus d') : d'.buf = d.buf := by
  cases h with
  | untouched h => rw [h]
  | line w _ h => rw [h]
  | level w _ _ h => rw [h]

/-- A level that changes is that of an accepted word written to DAC_VALUE (R28, R125). -/
theorem dac_changed (h : DeviceAccess d bus d') (hne : d'.dac ≠ d.dac) :
    ∃ w, bus = some ⟨.wr, dacOff, w⟩ ∧ dacAccepts w = true ∧ d'.dac = some (loHalf w) := by
  cases h with
  | untouched h => exact absurd (by rw [h]) hne
  | line w _ h => exact absurd (by rw [h]) hne
  | level w hb ha h => exact ⟨w, hb, ha, by rw [h]⟩

/-- No access ends an acquisition (R27). -/
theorem acquiring_of (h : DeviceAccess d bus d') (hq : d.acquiring = true) : d'.acquiring = true := by
  cases h with
  | untouched h => rw [h, hq]
  | line w _ h => rw [h, hq, Bool.true_or]
  | level w _ _ h => rw [h, hq]

/-- An access that starts an acquisition is a rising write of TRIGGER (R121). -/
theorem acquiring_started (h : DeviceAccess d bus d') (hq : d.acquiring = false) (hq' : d'.acquiring = true) :
    ∃ w, bus = some ⟨.wr, triggerOff, w⟩ ∧ risingEdge d.trig w = true ∧ d'.trig = triggerLevel w := by
  cases h with
  | untouched h => rw [h, hq] at hq'; cases hq'
  | line w hb h =>
    rw [h, hq, Bool.false_or] at hq'
    exact ⟨w, hb, hq', by rw [h]⟩
  | level w _ _ h => rw [h, hq] at hq'; cases hq'

end DeviceAccess

theorem dacAccepts_iff {w : Word} : dacAccepts w = true ↔ 1 ≤ w.toNat ∧ w.toNat ≤ 65535 := decide_eq_true_iff

theorem risingEdge_iff {l : BitVec 1} {w : Word} : risingEdge l w = true ↔ triggerLevel w = 1 ∧ l = 0 := by
  simp only [risingEdge, Bool.and_eq_true, beq_iff_eq]

theorem getLsbD_zero_of_triggerLevel {w : Word} (h : triggerLevel w = 1) : w.getLsbD 0 = true := by
  have h0 : (triggerLevel w).getLsbD 0 = true := by rw [h]; rfl
  simpa [triggerLevel] using h0

/-! ## The controller's part of a step -/

/-- What a step makes of `C`: nothing, a step of its session (R141), the acceptance of a request (R142), a cleared port
(R158), or a reset. -/
inductive ControllerStepped (s t : State) : Prop where
  | untouched (h : t.c = s.c)
  | session (rest : List Event) (h : SessionStep Config.params (s.begin rest) t)
  | accepted (r : Request) (hst : s.c.st = .idle) (hw : r.wordCount ≤ Config.params.bufDepth)
      (h : t.c = s.c.accepted r)
  | taken (h : t.c = { s.c with result := .none })
  | reset (rest : List Event) (ha : s.agenda = .move .systemReset :: rest ∨ s.agenda = .move .controllerReset :: rest)
      (h : t.c = Controller.reset)

theorem Executed.controllerStepped {i : Instr} {rest : List Event} {s t : State}
    (h : Executed Config.params i (s.begin rest) t) : ControllerStepped s t := by
  cases h with
  | wrote off w h => exact .untouched h.c_eq
  | read h => obtain ⟨n, off, w, rfl⟩ := h; exact .untouched rfl
  | accepted r _ hst hw h => subst h; exact .accepted r hst hw rfl
  | enqueued r _ _ h => subst h; exact .untouched rfl
  | pure h => obtain ⟨k, a, rfl⟩ := h; exact .untouched rfl

theorem step_controller {s t : State} (h : step s = .next t) : ControllerStepped s t := by
  cases step_cases h with
  | waited _ _ h => subst h; exact .untouched rfl
  | executed x i rest _ _ h => exact h.controllerStepped
  | session rest _ h => exact .session rest h
  | accepted n r rest _ hst _ hw h => subst h; exact .accepted r hst hw rfl
  | completed rest _ _ h => subst h; exact .untouched rfl
  | taken rest _ _ h => subst h; exact .taken rfl
  | systemReset rest ha h => subst h; exact .reset rest (.inl ha) rfl
  | controllerReset rest ha h => subst h; exact .reset rest (.inr ha) rfl

/-! ## The session invariant, state by state -/

section
variable {φ : Type} {p : Params φ} {c : Controller}

theorem Controller.sessionOk_idle (h : c.st = .idle) : c.sessionOk p ↔ c.raw = [] := by
  rw [Controller.sessionOk, h]

theorem Controller.sessionOk_triggering (h : c.st = .triggering) :
    c.sessionOk p ↔ c.raw = [] ∧ c.idx = 0 ∧ c.polls = 0 ∧ c.result = .none ∧ c.req.wordCount ≤ p.bufDepth ∧
      (c.ph = .tDac → c.req.dacValue.isSome) := by
  rw [Controller.sessionOk, h]

theorem Controller.sessionOk_busy (h : c.st = .busy) :
    c.sessionOk p ↔ c.raw = [] ∧ c.idx = 0 ∧ c.polls < p.pollLimit ∧ c.result = .none ∧
      c.req.wordCount ≤ p.bufDepth := by
  rw [Controller.sessionOk, h]

theorem Controller.sessionOk_ready (h : c.st = .ready) :
    c.sessionOk p ↔ c.raw.length = c.idx ∧ c.idx ≤ c.req.wordCount ∧ c.result = .none ∧
      c.req.wordCount ≤ p.bufDepth := by
  rw [Controller.sessionOk, h]

theorem Controller.resultOk_of_none (h : c.result = .none) : c.resultOk := by
  rw [Controller.resultOk, h]; trivial

/-- The port is empty while a session runs (R38, R142). -/
theorem Controller.sessionOk.result_none (h : c.sessionOk p) (hst : c.st ≠ .idle) : c.result = .none := by
  cases hc : c.st with
  | idle => exact absurd hc hst
  | triggering => exact ((sessionOk_triggering hc).1 h).2.2.2.1
  | busy => exact ((sessionOk_busy hc).1 h).2.2.2.1
  | ready => exact ((sessionOk_ready hc).1 h).2.2.1

theorem Controller.accepted_sessionOk {r : Request} (hw : r.wordCount ≤ p.bufDepth) : (c.accepted r).sessionOk p := by
  refine (sessionOk_triggering rfl).2 ⟨rfl, rfl, rfl, rfl, hw, fun hph => ?_⟩
  cases hd : r.dacValue with
  | none => simp [Controller.accepted, hd] at hph
  | some d => simp [Controller.accepted, hd]

/-- The strobe's phases after `T_DAC` ask nothing more of a session (R31, R142). -/
theorem Controller.sessionOk.withPhase (h : c.sessionOk p) (hst : c.st = .triggering) {q : Phase} (hq : q ≠ .tDac) :
    Controller.sessionOk p { c with ph := q } := by
  obtain ⟨hraw, hidx, hpolls, hres, hwc, _⟩ := (sessionOk_triggering hst).1 h
  refine (sessionOk_triggering ?_).2 ⟨hraw, hidx, hpolls, hres, hwc, fun hph => absurd hph hq⟩
  exact hst

/-- Taking the result disturbs no session (R158). -/
theorem Controller.sessionOk.withoutResult (h : c.sessionOk p) :
    Controller.sessionOk p { c with result := .none } := by
  by_cases hst : c.st = .idle
  · have hraw := (sessionOk_idle hst).1 h
    refine (sessionOk_idle ?_).2 hraw
    exact hst
  · have hc : { c with result := .none } = c := by rw [← h.result_none hst]
    rw [hc]; exact h

end

/-! ## A step of a session -/

namespace SessionStep

variable {p : Params Phys} {s t : State}

theorem not_idle (h : SessionStep p s t) : s.c.st ≠ .idle := by
  cases h with
  | dac _ _ hst | high _ hst | low _ hst | diag hst | pollZero hst | pollAgain hst | timeout hst | sample _ _ hst
  | deliver hst => rw [hst]; exact nofun

theorem seq_eq (h : SessionStep p s t) : t.c.seq = s.c.seq := by
  cases h with
  | dac d u _ _ _ _ h => rw [h]; rfl
  | high u _ _ _ h | low u _ _ _ h => rw [h]; rfl
  | diag _ _ h | pollZero _ _ h | deliver _ _ h => rw [h]; rfl
  | pollAgain _ _ _ h | timeout _ _ _ h => rw [h]; rfl
  | sample w n _ _ _ h => rw [h]; rfl

/-- A step of a session leaves the port as it was, or it ends the session with a block or with the timeout (R150, R154). -/
theorem result_cases (h : SessionStep p s t) :
    t.c.result = s.c.result ∨
    (t.c.st = .idle ∧
      ((s.c.st = .ready ∧ s.c.idx = s.c.req.wordCount ∧
          t.c.result = .block s.c.seq (decodeBlock s.c.raw p.layout)) ∨
       (s.c.st = .busy ∧ s.c.polls + 1 = p.pollLimit ∧ s.v.acquiring = true ∧
          t.c.result = .condition s.c.seq .acquisitionTimeout))) := by
  cases h with
  | dac d u _ _ _ _ h => rw [h]; exact .inl rfl
  | high u _ _ _ h | low u _ _ _ h => rw [h]; exact .inl rfl
  | diag _ _ h | pollZero _ _ h => rw [h]; exact .inl rfl
  | pollAgain _ _ _ h => rw [h]; exact .inl rfl
  | timeout hst ha hp h => rw [h]; exact .inr ⟨rfl, .inr ⟨hst, hp, ha, rfl⟩⟩
  | sample w n _ _ _ h => rw [h]; exact .inl rfl
  | deliver hst hi h => rw [h]; exact .inr ⟨rfl, .inl ⟨hst, hi, rfl⟩⟩

theorem keeps_sessionOk (h : SessionStep p s t) (hl : 1 ≤ p.pollLimit) (hs : s.c.sessionOk p) : t.c.sessionOk p := by
  cases h with
  | dac d u hst _ _ _ h | high u hst _ _ h | low u hst _ _ h => rw [h]; exact hs.withPhase hst nofun
  | diag hst _ h =>
    obtain ⟨hraw, hidx, hpolls, hres, hwc, _⟩ := (Controller.sessionOk_triggering hst).1 hs
    subst h
    exact (Controller.sessionOk_busy rfl).2 ⟨hraw, hidx, hpolls.symm ▸ hl, hres, hwc⟩
  | pollZero hst _ h =>
    obtain ⟨hraw, hidx, _, hres, hwc⟩ := (Controller.sessionOk_busy hst).1 hs
    subst h
    refine (Controller.sessionOk_ready rfl).2 ⟨?_, ?_, hres, hwc⟩
    · simp [hraw, hidx]
    · simp [hidx]
  | pollAgain hst _ hp h =>
    obtain ⟨hraw, hidx, hpolls, hres, hwc⟩ := (Controller.sessionOk_busy hst).1 hs
    subst h
    refine (Controller.sessionOk_busy ?_).2 ⟨hraw, hidx, Nat.lt_of_le_of_ne hpolls hp, hres, hwc⟩
    exact hst
  | timeout _ _ _ h => subst h; exact (Controller.sessionOk_idle rfl).2 rfl
  | sample w n hst hi _ h =>
    obtain ⟨hlen, _, hres, hwc⟩ := (Controller.sessionOk_ready hst).1 hs
    subst h
    refine (Controller.sessionOk_ready ?_).2 ⟨?_, hi, hres, hwc⟩
    · exact hst
    · simp [hlen]
  | deliver _ _ h => subst h; exact (Controller.sessionOk_idle rfl).2 rfl

end SessionStep

/-- Both channels of a decoded block have one sample for each word (R52, R170). -/
theorem decodeBlock_lengths (raw : List Word) (l : Layout) :
    (decodeBlock raw l).channelA.length = (decodeBlock raw l).channelB.length := by
  simp [decodeBlock]

theorem SessionStep.keeps_resultOk {p : Params Phys} {s t : State} (h : SessionStep p s t) (hs : s.c.sessionOk p) :
    t.c.resultOk := by
  have hq := h.seq_eq
  rcases h.result_cases with hr | ⟨hst, ⟨_, _, hr⟩ | ⟨_, _, _, hr⟩⟩
  · exact Controller.resultOk_of_none (hr.trans (hs.result_none h.not_idle))
  · rw [Controller.resultOk, hr]; exact ⟨hst, hq.symm, decodeBlock_lengths _ _⟩
  · rw [Controller.resultOk, hr]; exact ⟨hst, hq.symm, rfl⟩

/-! ## The invariant -/

theorem ControllerStepped.keeps_sessionOk {s t : State} (h : ControllerStepped s t)
    (hs : s.c.sessionOk Config.params) : t.c.sessionOk Config.params := by
  cases h with
  | untouched h => rw [h]; exact hs
  | session rest h => exact h.keeps_sessionOk Laws.Config.params_valid.limit_pos hs
  | accepted r _ hw h => rw [h]; exact Controller.accepted_sessionOk hw
  | taken h => rw [h]; exact hs.withoutResult
  | reset rest _ h => rw [h]; exact (Controller.sessionOk_idle rfl).2 rfl

theorem ControllerStepped.keeps_resultOk {s t : State} (h : ControllerStepped s t)
    (hs : s.c.sessionOk Config.params) (hr : s.c.resultOk) : t.c.resultOk := by
  cases h with
  | untouched h => rw [h]; exact hr
  | session rest h => exact h.keeps_resultOk hs
  | accepted r _ _ h | taken h | reset rest _ h => exact Controller.resultOk_of_none (congrArg Controller.result h)

theorem DeviceStepped.keeps_buf_wf {s t : State} (h : DeviceStepped s t) (hb : s.v.buf.wf) : t.v.buf.wf := by
  cases h with
  | access h => rw [h.buf_eq]; exact hb
  | completed rest _ _ h => rw [h]; exact Memory.fill_wf hb _ _ _
  | reset rest _ h => rw [h]; exact reset_buf_wf

theorem Device.reset_buf_inBuffer {φ : Type} (p : Params φ) : Device.reset.buf.inBuffer p := nofun

theorem DeviceStepped.keeps_buf_inBuffer {s t : State} (h : DeviceStepped s t)
    (hb : s.v.buf.inBuffer Config.params) : t.v.buf.inBuffer Config.params := by
  cases h with
  | access h => rw [h.buf_eq]; exact hb
  | completed rest _ _ h => rw [h]; exact Memory.fill_inBuffer hb _ (Nat.le_refl _)
  | reset rest _ h => rw [h]; exact Device.reset_buf_inBuffer _

/-- Settles O28: each agent's part of a step keeps its part of the invariant. -/
theorem stepKeepsInvariant : Obligations.StepKeepsInvariant := by
  intro s t hi h
  have hd := step_device h
  have hc := step_controller h
  exact ⟨hd.keeps_buf_wf hi.buf_wf, hd.keeps_buf_inBuffer hi.buf_inBuffer, hc.keeps_sessionOk hi.session,
    hc.keeps_resultOk hi.session hi.result⟩

/-! ## The sequence number and the result port -/

/-- Settles O54: acceptance is the only change of `C` that touches the number, and it alone leads from `Idle` to
`Triggering`. -/
theorem sequenceNumberAdvancesAtAcceptance : Obligations.SequenceNumberAdvancesAtAcceptance := by
  intro s t h hn
  cases step_controller h with
  | untouched h | taken h =>
    have hst : t.c.st = s.c.st := by rw [h]
    exact .inr ⟨fun ⟨hi, ht⟩ => (nomatch (hst.trans hi).symm.trans ht), by rw [h]⟩
  | session rest h => exact .inr ⟨fun ⟨hi, _⟩ => h.not_idle hi, h.seq_eq⟩
  | accepted r hst _ h => exact .inl ⟨hst, by rw [h]; rfl, by rw [h]; rfl⟩
  | reset rest ha _ => exact (ha.elim (hn rest).1 (hn rest).2).elim

/-- In `Ready` there is one word for each sample read (R51), so at the delivery there are as many as asked for. -/
theorem State.Inv.raw_length_of_ready {φ : Type} {p : Params φ} {s : State} (hi : s.Inv p) (hst : s.c.st = .ready) :
    s.c.raw.length = s.c.idx := ((Controller.sessionOk_ready hst).1 hi.session).1

/-- Settles O55: no change of `C` but a session's step puts a result on the port, and that step ends the session. -/
theorem resultAppearsAtSessionEnd : Obligations.ResultAppearsAtSessionEnd := by
  intro s t h hne hsome
  cases step_controller h with
  | untouched h => exact absurd (by rw [h]) hne
  | session rest h =>
    rcases h.result_cases with hr | ⟨hst, ⟨hrd, hidx, hr⟩ | hto⟩
    · exact absurd hr hne
    · exact ⟨hst, .inl ⟨hrd, hidx, fun hi => (hi.raw_length_of_ready hrd).trans hidx, hr⟩⟩
    · exact ⟨hst, .inr hto⟩
  | accepted r _ _ h | taken h | reset rest _ h => exact absurd (congrArg Controller.result h) hsome

/-! ## The device's registers -/

/-- Settles O56: an access leaves the whole buffer. -/
theorem bufferChangesOnlyByCompletion : Obligations.BufferChangesOnlyByCompletion := by
  intro s t a h hne
  cases step_device h with
  | access h => exact absurd (by rw [h.buf_eq]) hne
  | completed rest ha hq _ => exact ⟨rest, .inl ⟨ha, hq⟩⟩
  | reset rest ha _ => exact ⟨rest, .inr ha⟩

/-- Settles O57: of the accesses only an accepted write of DAC_VALUE sets the level; a completion keeps it. -/
theorem dacLevelChangesOnlyByLegalWrite : Obligations.DacLevelChangesOnlyByLegalWrite := by
  intro s t h hne
  cases step_device h with
  | access h =>
    obtain ⟨w, hb, ha, hd⟩ := h.dac_changed hne
    obtain ⟨hlo, hhi⟩ := dacAccepts_iff.1 ha
    exact .inr ⟨w, hb, hlo, hhi, hd⟩
  | completed rest _ _ h => exact absurd (by rw [h]) hne
  | reset rest ha _ => exact .inl ⟨rest, ha⟩

/-- Settles O58: an access can only raise `acquiring`, by a rising write; a completion and a reset only clear it. -/
theorem acquiringFollowsStrobeAndCompletion : Obligations.AcquiringFollowsStrobeAndCompletion := by
  intro s t h
  cases step_device h with
  | access h =>
    refine ⟨fun hq hq' => ?_, fun hq hq' => ?_⟩
    · obtain ⟨w, hb, hr, ht⟩ := h.acquiring_started hq hq'
      obtain ⟨hw, hl⟩ := risingEdge_iff.1 hr
      exact ⟨hl, ht.trans hw, w, hb, getLsbD_zero_of_triggerLevel hw⟩
    · rw [h.acquiring_of hq] at hq'; cases hq'
  | completed rest ha _ h =>
    have hrest : t.v.acquiring = false := congrArg Device.acquiring h
    exact ⟨fun _ hq' => (nomatch hrest.symm.trans hq'), fun _ _ => ⟨rest, .inl ha⟩⟩
  | reset rest ha h =>
    have hrest : t.v.acquiring = false := congrArg Device.acquiring h
    exact ⟨fun _ hq' => (nomatch hrest.symm.trans hq'), fun _ _ => ⟨rest, .inr ha⟩⟩

/-! ## Reset -/

theorem Controller.reset_not_strobed : ¬ Controller.reset.strobed := by
  rintro (⟨h, _⟩ | h) <;> cases h

/-- Settles O30: at reset `C` is in `Idle`, the line is low and the buffer holds nothing. -/
theorem goodStateAtReset : Obligations.GoodStateAtReset := by
  intro moves
  refine ⟨?_, fun he => ?_⟩
  · exact ⟨reset_buf_wf, Device.reset_buf_inBuffer _, (Controller.sessionOk_idle rfl).2 rfl,
      Controller.resultOk_of_none rfl⟩
  · exact {
      agenda := he
      line := ⟨nofun, nofun⟩
      strobed := fun h => absurd h Controller.reset_not_strobed
      ready := nofun }

/-- Settles O59: the reset state's fields are the table's, and no cell of its buffer holds a word. -/
theorem resetValues : Obligations.ResetValues :=
  ⟨rfl, rfl, rfl, rfl, rfl, rfl, rfl, rfl, rfl, rfl, rfl, fun _ => rfl⟩

end Sys2Proof.Machine
end

section
/-! PROOFS. Which presented operations are refused and which make a register transaction (20_memory.md rules R66 to R68 and
R72 to R74), and the handshake with the device under the host's duty (R80, R291, R269). -/

namespace Sys2Proof

variable {φ : Type} {p : Params φ} {off : Nat}

/-! ## Refused transactions -/

theorem regTarget_misaligned (p : Params φ) (h : off % 4 ≠ 0) : regTarget p off = .error .misaligned := by
  have ho := Machine.offsets_eq
  rw [regTarget, if_neg (by omega), if_neg (by omega), if_neg (by omega), if_pos h]

theorem regTarget_unassigned (hv : p.Valid) (ha : off % 4 = 0) (ht : off ≠ triggerOff) (hb : off ≠ busyOff)
    (hd : off ≠ dacOff) (hs : ∀ i, i < p.bufDepth → off ≠ sampleOff p i) :
    regTarget p off = .error .unassigned := by
  have hbase := hv.base_aligned
  have houtside : ¬ (p.sampleBase ≤ off ∧ off < p.sampleBase + 4 * p.bufDepth) := by
    intro hin
    refine hs ((off - p.sampleBase) / 4) (by omega) ?_
    rw [sampleOff]; omega
  rw [regTarget, if_neg ht, if_neg hb, if_neg hd, if_neg (not_not_intro ha), if_neg houtside]

/-- A transaction with the data word its direction asks for (R91) is refused as its offset is. -/
theorem decodeReg_error {dir : Dir} {data : Option Word} {why : Reject} (hdata : data.isSome = true ↔ dir = .wr)
    (h : regTarget p off = .error why) : decodeReg p dir off data = .error why := by
  cases dir with
  | rd =>
    cases data with
    | none => rw [decodeReg, h]; rfl
    | some v => exact absurd (hdata.1 rfl) nofun
  | wr =>
    cases data with
    | none => exact absurd (hdata.2 rfl) nofun
    | some v => rw [decodeReg, h]; rfl

theorem decode_width (p : Params φ) (bytes : List Byte) {width : Nat} (data : Option Word) (h : width ≠ 4) :
    decode p (.reg bytes width data) = .error .width := if_pos h

/-! ## The operations of format CMD -/

/-- The operations that write the answer port, the classify operations `K` too, and nothing else (R204, R230, R270). -/
def Instr.isPure : Instr → Bool
  | .decode _ _ | .encode _ _ | .classifyHyst _ _ _ | .classifySkip _ _ _ | .bucket _ | .lutRead _ | .locate _ _ => true
  | .wrTrigger _ | .rdTrigger | .rdBusy | .wrBusy _ | .wrDac _ | .rdSample _ | .rdDac | .wrSample _ _ | .acquire _ => false

theorem decodeCmd_ok {op : Nat} {operand : Operand} {i : Instr} (h : decodeCmd op operand = .ok i) :
    (∃ r, i = .acquire r) ∨ i.isPure = true := by
  unfold decodeCmd at h
  split_ifs at h
  · split at h <;> cases h
    exact .inl ⟨_, rfl⟩
  all_goals
    split at h <;> cases h
    exact .inr rfl

/-- Format CMD presents an ACQUIRE or a pure operation, never a register transaction (R90, R108). -/
theorem decode_cmd_ok {selector : List Byte} {operand : Operand} {i : Instr}
    (h : decode p (.cmd selector operand) = .ok i) : (∃ r, i = .acquire r) ∨ i.isPure = true := by
  match selector, h with
  | [op], h => exact decodeCmd_ok h

end Sys2Proof

namespace Sys2Proof.Machine

/-! ## The step of a presented operation -/

theorem step_rejected {s : State} {x : Presented} {rest : List Event} {why : Reject}
    (ha : s.agenda = .present x :: rest) (hd : decode Config.params x = .error why) :
    step s = .refused (.rejected why) := by
  simp only [step, ha, hd]

theorem step_present {s : State} {x : Presented} {rest : List Event} {i : Instr}
    (ha : s.agenda = .present x :: rest) (hd : decode Config.params x = .ok i) :
    step s = exec i (s.begin rest) := by
  simp only [step, ha, hd]

/-- Settles O4: the width is tested first, then the address map refuses the offset. -/
theorem reservedTransactionRefused : Obligations.ReservedTransactionRefused := by
  intro s dir off width data rest ha hdata
  refine ⟨fun hw => step_rejected ha (decode_width _ _ _ hw), ?_, ?_⟩
  · rintro rfl hoff
    refine step_rejected ha ?_
    rw [decode_descriptor]
    exact decodeReg_error hdata (regTarget_misaligned _ hoff)
  · rintro rfl hoff ht hb hd hs
    refine step_rejected ha ?_
    rw [decode_descriptor]
    exact decodeReg_error hdata (regTarget_unassigned Laws.Config.params_valid hoff ht hb hd hs)

/-- A pure operation that completes changes at most `K` and the answer. -/
theorem exec_pure {i : Instr} {s t : State} (hi : i.isPure = true) (h : exec i s = .next t) : Pure s t := by
  cases i with
  | decode | bucket | classifyHyst => cases h; exact ⟨_, _, rfl⟩
  | encode | classifySkip | lutRead | locate =>
    simp only [exec, execEncode, execClassifySkip, execLutRead, execLocate] at h
    split at h <;> cases h
    exact ⟨_, _, rfl⟩
  | wrTrigger | rdTrigger | rdBusy | wrBusy | wrDac | rdSample | rdDac | wrSample | acquire => cases hi

/-- ACQUIRE is accepted in `Idle` and waits outside it (R142, R157). -/
theorem execAcquire_ok {r : Request} {s t : State} (h : execAcquire r s = .next t) :
    (s.c.st = .idle ∧ r.wordCount ≤ Config.params.bufDepth ∧ t = s.withC (s.c.accepted r)) ∨
    (s.c.st ≠ .idle ∧ t = enqueue r s) := by
  rw [execAcquire] at h
  split at h <;> rename_i hst
  · exact .inl ⟨hst, accept_cases h⟩
  all_goals
    cases h
    exact .inr ⟨by rw [hst]; exact nofun, rfl⟩

/-! ## What the handshake asks of a state -/

section
variable {φ : Type} {p : Params φ} {s t : State}

theorem State.filled.of_buf_eq (h : s.filled p) (hb : t.v.buf = s.v.buf) : t.filled p := by
  rw [State.filled, hb]; exact h

/-- A completion leaves no cell without a word (R131). -/
theorem State.filled_of_fill {m : Memory} {d : Nat} (hb : t.v.buf = m.fill p.sampleBase d p.bufDepth) : t.filled p := by
  intro i hi
  rw [hb, sampleOff, Memory.readWord_fill _ _ _ hi]; rfl

namespace State.Handshake

theorem line_low (h : s.Handshake p) (hn : s.c.st = .triggering → s.c.ph ≠ .tLow) : s.v.trig = 0 :=
  (BitVec.eq_zero_or_eq_one _).resolve_right fun hl => hn (h.line.1 hl).1 (h.line.1 hl).2

/-- The handshake says nothing of the ports, and of the moves to come only what each of them keeps. -/
theorem begin (h : s.Handshake p) {rest : List Event} (hr : ∀ e ∈ rest, e ∈ s.agenda) : (s.begin rest).Handshake p :=
  ⟨fun e he => h.agenda e (hr e he), h.line, h.strobed, h.ready⟩

/-- It reads the device and the session's state and phase. -/
theorem of_unchanged (h : s.Handshake p) (ha : t.agenda = s.agenda) (hv : t.v = s.v) (hst : t.c.st = s.c.st)
    (hph : t.c.ph = s.c.ph) : t.Handshake p where
  agenda := ha ▸ h.agenda
  line := by rw [hv, hst, hph]; exact h.line
  strobed hs := by
    rw [Controller.strobed, hst, hph] at hs
    rw [hv]
    exact (h.strobed hs).imp_right (·.of_buf_eq (by rw [hv]))
  ready hr := by
    obtain ⟨hq, hf⟩ := h.ready (hst ▸ hr)
    rw [hv]
    exact ⟨hq, hf.of_buf_eq (by rw [hv])⟩

/-- Before the strobe and after the session only the line counts. -/
theorem of_line_low (ha : ∀ e ∈ t.agenda, e.exclusive) (hl : t.v.trig = 0) (hs : ¬ t.c.strobed) (hr : t.c.st ≠ .ready) :
    t.Handshake p where
  agenda := ha
  line := ⟨fun h1 => absurd (hl.symm.trans h1) (by decide), fun hst => absurd (.inl ⟨hst.1, .inl hst.2⟩) hs⟩
  strobed h := absurd h hs
  ready h := absurd h hr

end State.Handshake

/-- Outside a session, and once BUSY has read zero (R149). -/
theorem Controller.not_strobed_of_state {c : Controller} (h : c.st = .idle ∨ c.st = .ready) : ¬ c.strobed := by
  rintro (⟨hst, _⟩ | hst) <;> rw [hst] at h <;> exact h.elim nofun nofun

/-- The phases up to the rising write (R143, R144). -/
theorem Controller.not_strobed_of_phase {c : Controller} (h : c.st = .triggering) (hph : c.ph = .tDac ∨ c.ph = .tHigh) :
    ¬ c.strobed := by
  rintro (⟨_, hph'⟩ | hbusy)
  · rcases hph with hph | hph <;> rw [hph] at hph' <;> exact hph'.elim nofun nofun
  · exact nomatch h.symm.trans hbusy

/-! ## Each agent's part of a step -/

theorem readBusy_agenda (s : State) : (readBusy s).2.agenda = s.agenda := by
  obtain ⟨n, hn⟩ := readBusy_cases s
  rw [hn]; rfl

theorem SessionStep.agenda_eq (h : SessionStep p s t) : t.agenda = s.agenda := by
  cases h with
  | dac d u _ _ _ hw h => rw [h]; exact hw.agenda_eq
  | high u _ _ hw h | low u _ _ hw h => rw [h]; exact (writeTrigger_cases hw).agenda_eq
  | pollZero _ _ h | pollAgain _ _ _ h | timeout _ _ _ h => rw [h]; exact readBusy_agenda s
  | diag _ _ h | sample _ _ _ _ _ h | deliver _ _ h => rw [h]; rfl

/-- No write but that of TRIGGER moves the line (R121). -/
theorem Wrote.trig_eq {off : Nat} {w : Word} (h : Wrote s off w t) (ho : off ≠ triggerOff) : t.v.trig = s.v.trig := by
  cases h with
  | nothing h => rw [h]; rfl
  | line ho' => exact absurd ho' ho
  | level _ _ h => rw [h]; rfl

/-- Acceptance comes before the strobe (R142). -/
theorem State.Handshake.accepted (hs : s.Handshake p) (hst : s.c.st = .idle) {r : Request} (ha : t.agenda = s.agenda)
    (hv : t.v = s.v) (hc : t.c = s.c.accepted r) : t.Handshake p := by
  have hst' : t.c.st = .triggering := congrArg Controller.st hc
  have hph : t.c.ph = .tDac ∨ t.c.ph = .tHigh := by
    rw [hc, Controller.accepted]
    by_cases hd : r.dacValue = none
    · exact .inr (if_pos hd)
    · exact .inl (if_neg hd)
  refine .of_line_low (ha ▸ hs.agenda) ?_ (Controller.not_strobed_of_phase hst' hph) ?_
  · rw [hv]; exact hs.line_low (by rw [hst]; exact nofun)
  · rw [hst']; exact nofun

/-- The rising write finds the device at rest, or it is refused (R129): afterwards the device acquires. -/
theorem writeTrigger_one_ok (hl : s.v.trig = 0) (h : writeTrigger 1 s = .ok t) : t.v.trig = 1 ∧ t.v.acquiring = true := by
  cases ha : s.v.acquiring
  · rw [writeTrigger_one hl ha] at h; cases h; exact ⟨rfl, rfl⟩
  · rw [writeTrigger_one_acquiring hl ha] at h; cases h

/-- The controller's own step keeps the handshake: the strobe starts the acquisition, and only a zero BUSY ends `Busy` with
`Ready` (R144, R149). -/
theorem SessionStep.keeps_handshake (h : SessionStep p s t) (hs : s.Handshake p) : t.Handshake p := by
  have ha : ∀ e ∈ t.agenda, e.exclusive := h.agenda_eq ▸ hs.agenda
  cases h with
  | dac d u hst hph _ hw h =>
    subst h
    refine .of_line_low ha ?_ (Controller.not_strobed_of_phase hst (.inr rfl)) (by simp [hst])
    exact (hw.trig_eq nofun).trans (hs.line_low fun _ => by simp [hph])
  | high u hst hph hw h =>
    subst h
    obtain ⟨hline, hacq⟩ := writeTrigger_one_ok (hs.line_low fun _ => by simp [hph]) hw
    exact ⟨ha, iff_of_true hline ⟨hst, rfl⟩, fun _ => .inl hacq, fun hr => (nomatch hst.symm.trans hr)⟩
  | low u hst hph hw h =>
    rw [writeTrigger_zero] at hw
    cases hw
    subst h
    exact ⟨ha, ⟨nofun, nofun⟩, fun _ => hs.strobed (.inl ⟨hst, .inl hph⟩), fun hr => (nomatch hst.symm.trans hr)⟩
  | diag hst hph h =>
    have hline : s.v.trig = 0 := hs.line_low fun _ => by simp [hph]
    subst h
    exact ⟨ha, ⟨fun h1 => (nomatch hline.symm.trans h1), nofun⟩, fun _ => hs.strobed (.inl ⟨hst, .inr hph⟩), nofun⟩
  | pollZero hst hq h =>
    have hline : s.v.trig = 0 := hs.line_low (by simp [hst])
    have hf : s.filled p := (hs.strobed (.inr hst)).resolve_left (by simp [hq])
    rw [readBusy_idle hq] at h
    subst h
    exact ⟨ha, ⟨fun h1 => (nomatch hline.symm.trans h1), nofun⟩,
      fun hst' => absurd hst' (Controller.not_strobed_of_state (.inr rfl)), fun _ => ⟨hq, hf⟩⟩
  | pollAgain hst _ _ h =>
    subst h
    exact hs.of_unchanged (readBusy_agenda s) (readBusy_device s) rfl rfl
  | timeout hst _ _ h =>
    subst h
    refine .of_line_low ha ?_ (Controller.not_strobed_of_state (.inl rfl)) nofun
    rw [State.withC_v, readBusy_device]
    exact hs.line_low (by simp [hst])
  | sample w n _ _ _ h =>
    subst h
    exact hs.of_unchanged rfl rfl rfl rfl
  | deliver hst _ h =>
    subst h
    exact .of_line_low ha (hs.line_low (by simp [hst])) (Controller.not_strobed_of_state (.inl rfl)) nofun

/-- An operation of format CMD keeps the handshake: it touches no register (R269). -/
theorem exec_cmd_keeps_handshake {selector : List Byte} {operand : Operand} {i : Instr}
    (hd : decode p (.cmd selector operand) = .ok i) (hs : s.Handshake p) (h : exec i s = .next t) : t.Handshake p := by
  rcases decode_cmd_ok hd with ⟨r, rfl⟩ | hi
  · rcases execAcquire_ok h with ⟨hst, _, rfl⟩ | ⟨_, rfl⟩
    · exact hs.accepted hst rfl rfl rfl
    · exact hs.of_unchanged rfl rfl rfl rfl
  · obtain ⟨k, a, rfl⟩ := exec_pure hi h
    exact hs.of_unchanged rfl rfl rfl rfl

/-- A completion fills the buffer and leaves `C` as it was (R131, D10). -/
theorem State.Handshake.completed (hs : s.Handshake p) (ha : t.agenda = s.agenda) (hc : t.c = s.c) {d : Nat}
    (hv : t.v = { s.v with buf := s.v.buf.fill p.sampleBase d p.bufDepth, acquiring := false }) : t.Handshake p := by
  have hf : t.filled p := State.filled_of_fill (congrArg Device.buf hv)
  exact ⟨ha ▸ hs.agenda, by rw [hv, hc]; exact hs.line, fun _ => .inr hf, fun _ => ⟨congrArg Device.acquiring hv, hf⟩⟩

end

/-- Settles O29: with the head of the agenda taken off, each agent's move keeps the handshake; a transaction of another
master and a reset of the controller alone are not on it. -/
theorem stepKeepsHandshake : Obligations.StepKeepsHandshake := by
  intro s t _ hs h
  have hbegin {e : Event} {rest : List Event} (ha : s.agenda = [] ∧ rest = [] ∨ s.agenda = e :: rest) :
      (s.begin rest).Handshake Config.params := by
    refine hs.begin fun x hx => ?_
    rcases ha with ⟨_, rfl⟩ | ha
    · cases hx
    · exact ha ▸ List.mem_cons_of_mem e hx
  have hduty {e : Event} {rest : List Event} (ha : s.agenda = e :: rest) : e.exclusive = true :=
    hs.agenda e (ha ▸ List.mem_cons_self)
  cases step_cases h with
  | waited _ _ h => subst h; exact hs.begin nofun
  | executed x i rest ha hd _ =>
    cases x with
    | reg => exact absurd (hduty ha) nofun
    | cmd selector operand =>
      rw [step_present ha hd] at h
      exact exec_cmd_keeps_handshake hd (hbegin (.inr ha)) h
  | session rest ha h => exact h.keeps_handshake (hbegin ha)
  | accepted n r rest ha hst _ _ h => subst h; exact (hbegin ha).accepted hst rfl rfl rfl
  | completed rest ha _ h => subst h; exact (hbegin (.inr ha)).completed rfl rfl rfl
  | taken rest ha _ h => subst h; exact (hbegin (.inr ha)).of_unchanged rfl rfl rfl rfl
  | systemReset rest ha h =>
    subst h
    exact .of_line_low (hbegin (.inr ha)).agenda rfl Controller.reset_not_strobed nofun
  | controllerReset rest ha _ => exact absurd (hduty ha) nofun

end Sys2Proof.Machine
end

section
/-! PROOFS. The encoder and the decoder (30_encoding.md rules R90 to R92 and R108 to R113): what each operation's encoding
decodes to, which presented operation an operation is decoded from, the reserved selectors, and the words of the table. -/

namespace Sys2Proof

variable {φ : Type} {p : Params φ}

/-! ## An encoding decodes to its operation -/

theorem decode_presentRead (p : Params φ) (off : Nat) :
    decode p (presentRead off) = (regTarget p off).map readInstr :=
  decode_descriptor p .rd off none

theorem decode_presentWrite (p : Params φ) (off : Nat) (v : Word) :
    decode p (presentWrite off v) = (regTarget p off).map (writeInstr v) :=
  decode_descriptor p .wr off (some v)

/-- All that decoding asks of an operation: a sample transaction stands at a word of the buffer (R92). The other operations
are read back also with operands that they refuse (R112), which `Instr.wellFormed` leaves out. -/
def Instr.inRange (p : Params φ) : Instr → Prop
  | .rdSample i | .wrSample i _ => i < p.bufDepth
  | .wrTrigger _ | .rdTrigger | .rdBusy | .wrBusy _ | .wrDac _ | .rdDac | .acquire _ | .decode _ _ | .encode _ _
  | .classifyHyst _ _ _ | .classifySkip _ _ _ | .bucket _ | .lutRead _ | .locate _ _ => True

theorem inRange_of_wellFormed {i : Instr} (h : i.wellFormed p = true) : i.inRange p := by
  cases i with
  | rdSample i | wrSample i => exact of_decide_eq_true (p := i < p.bufDepth) h
  | _ => trivial

theorem decode_encode (hv : p.Valid) {i : Instr} (hi : i.inRange p) : decode p (encode p i) = .ok i := by
  cases i with
  | rdTrigger | rdBusy | rdDac => exact decode_presentRead p _
  | wrTrigger | wrBusy | wrDac => exact decode_presentWrite p _ _
  | rdSample i => rw [encode, decode_presentRead, Machine.regTarget_sample hv hi]; rfl
  | wrSample i v => rw [encode, decode_presentWrite, Machine.regTarget_sample hv hi]; rfl
  | acquire | decode | encode | classifyHyst | classifySkip | bucket | lutRead | locate => rfl

/-- Settles O1: a well-formed operation's sample index is in range, which is all that its encoding needs. -/
theorem decodeOfEncodeIsIdentity : Obligations.DecodeOfEncodeIsIdentity :=
  fun _ _ _ hv hi => decode_encode hv (inRange_of_wellFormed hi)

/-! ## An operation is decoded from its encoding only -/

/-- The offset of a register or sample word: the address map read backwards (R72). -/
def RegTarget.offset (p : Params φ) : RegTarget → Nat
  | .trigger => triggerOff
  | .busy => busyOff
  | .dac => dacOff
  | .sample i => sampleOff p i

theorem offset_of_regTarget (hv : p.Valid) {off : Nat} {tgt : RegTarget} (h : regTarget p off = .ok tgt) :
    tgt.offset p = off := by
  have hoff := Machine.regTarget_ok hv h
  cases tgt with
  | trigger | busy | dac => exact hoff.symm
  | sample i => exact hoff.2.symm

theorem encode_readInstr (tgt : RegTarget) : encode p (readInstr tgt) = presentRead (tgt.offset p) := by
  cases tgt <;> rfl

theorem encode_writeInstr (v : Word) (tgt : RegTarget) :
    encode p (writeInstr v tgt) = presentWrite (tgt.offset p) v := by
  cases tgt <;> rfl

theorem exists_ok_of_map_ok {ε α β : Type} {x : Except ε α} {f : α → β} {b : β} (h : x.map f = .ok b) :
    ∃ a, x = .ok a ∧ f a = b := by
  cases x with
  | error => cases h
  | ok a => cases h; exact ⟨a, rfl, rfl⟩

theorem encode_of_decodeReg (hv : p.Valid) {dir : Dir} {off : Nat} {data : Option Word} {i : Instr}
    (h : decodeReg p dir off data = .ok i) :
    encode p i = .reg (descriptorBytes (packDescriptor dir off)) 4 data := by
  match dir, data, h with
  | .rd, none, h =>
    obtain ⟨tgt, ht, rfl⟩ := exists_ok_of_map_ok h
    rw [encode_readInstr, offset_of_regTarget hv ht]; rfl
  | .wr, some v, h =>
    obtain ⟨tgt, ht, rfl⟩ := exists_ok_of_map_ok h
    rw [encode_writeInstr, offset_of_regTarget hv ht]; rfl

/-- Each selector takes one form of operands, and each form makes one operation (R108). -/
theorem encode_of_decodeCmd {op : Nat} {operand : Operand} {i : Instr} (h : decodeCmd op operand = .ok i) :
    encode p i = .cmd [BitVec.ofNat 8 op] operand := by
  unfold decodeCmd at h
  split_ifs at h
  all_goals
    subst op
    split at h <;> cases h
    rfl

/-- Settles O2: the descriptor's bytes are read in their one form, and its direction and offset make it up again. -/
theorem encodingIsUnique : Obligations.EncodingIsUnique := by
  intro φ p x i hv h
  match x, h with
  | .cmd [op] operand, h => rw [encode_of_decodeCmd h, BitVec.ofNat_toNat, BitVec.setWidth_eq]
  | .reg bytes width data, h =>
    rw [decode] at h
    split_ifs at h with hw hb
    rw [encode_of_decodeReg hv h, packDescriptor_parts, not_not.1 hw, not_not.1 hb]

/-! ## The words of the opcode table -/

/-- A row's word reads as its operation when the operation it presents is that operation's encoding. -/
theorem decodeTableWord_of_encode {nbits w : Nat} {i : Instr} (hw : tableWord nbits w = encode Config.params i)
    (hi : i.inRange Config.params) : decodeTableWord nbits w = some i := by
  rw [decodeTableWord, hw, decode_encode Laws.Config.params_valid hi]

/-- Settles O5: each word is the encoding of its row's operation, and none of the rows names a sample word. -/
theorem tableWordsDecode : Obligations.TableWordsDecode := by
  unfold Obligations.TableWordsDecode
  and_intros
  all_goals exact decodeTableWord_of_encode rfl trivial

/-! ## The reserved selectors -/

theorem decodeCmd_reserved {op : Nat} (operand : Operand) (h : op = 0 ∨ 9 ≤ op) :
    decodeCmd op operand = .error .reservedSelector := by
  unfold decodeCmd
  iterate 8 rw [if_neg (by omega)]

end Sys2Proof

namespace Sys2Proof.Machine

/-- Settles O3: a selector outside 0x01 to 0x08 fails every comparison of R109, whatever operands follow it. -/
theorem reservedSelectorRefused : Obligations.ReservedSelectorRefused :=
  fun _ _ operand _ ha hop => step_rejected ha (decodeCmd_reserved operand hop)

/-- Settles O6: the state that `exec` starts from is the one `State.begin` leaves. -/
theorem stepRunsDecodedOperation : Obligations.StepRunsDecodedOperation :=
  fun _ _ _ _ ha hd => step_present ha hd

end Sys2Proof.Machine
end

section
/-! PROOFS. The register transactions as operations and the device's completion (40_register_transactions.md rules R121 to
R131), and a session whose device never completes (R132, R150). -/

namespace Sys2Proof.Machine

/-! ## WR.TRIGGER -/

/-- The line takes bit 0 of the word, whatever its bits 31:1 hold (R121, D6). -/
theorem triggerLevel_eq_ite (v : Word) : triggerLevel v = if v.getLsbD 0 then 1 else 0 := by
  apply BitVec.eq_of_getLsbD_eq
  intro i hi
  obtain rfl : i = 0 := by omega
  cases hb : v.getLsbD 0 <;> simpa [triggerLevel] using hb

theorem risingEdge_iff_getLsbD {l : BitVec 1} {v : Word} : risingEdge l v = true ↔ v.getLsbD 0 = true ∧ l = 0 := by
  rw [risingEdge_iff, triggerLevel_eq_ite]
  cases v.getLsbD 0 <;> simp

/-- A write of TRIGGER that is not a rising one while acquiring is taken (R121). -/
theorem writeTrigger_ok {v : Word} {s : State} (h : ¬ (risingEdge s.v.trig v = true ∧ s.v.acquiring = true)) :
    writeTrigger v s = .ok ((s.withV { s.v with
      trig := triggerLevel v
      acquiring := s.v.acquiring || risingEdge s.v.trig v }).onBus .wr triggerOff v) := by
  rw [writeTrigger, if_neg (by simpa using h)]

/-- A rising write of TRIGGER while acquiring is refused (R129). -/
theorem writeTrigger_refused {v : Word} {s : State} (hr : risingEdge s.v.trig v = true) (ha : s.v.acquiring = true) :
    writeTrigger v s = .error .strobeWhileAcquiring := by
  rw [writeTrigger, if_pos (by simp [hr, ha])]

/-- Settles O7: a rising write is one with bit 0 set on a low line, and it alone is tested against `acquiring`. -/
theorem triggerWriteStartsAcquisition : Obligations.TriggerWriteStartsAcquisition := by
  intro v s
  refine ⟨fun h => ?_, fun hb hl ha => ?_⟩
  · have hr : ¬ (risingEdge s.v.trig v = true ∧ s.v.acquiring = true) := by
      rw [risingEdge_iff_getLsbD, and_assoc]; exact h
    have hacq : (s.v.acquiring || risingEdge s.v.trig v) =
        if v.getLsbD 0 = true ∧ s.v.trig = 0 then true else s.v.acquiring := by
      split
      · rw [risingEdge_iff_getLsbD.2 ‹_›, Bool.or_true]
      · rw [eq_false_of_ne_true (mt risingEdge_iff_getLsbD.1 ‹_›), Bool.or_false]
    rw [← hacq, ← triggerLevel_eq_ite]
    exact congrArg outcomeOf (writeTrigger_ok hr)
  · exact congrArg outcomeOf (writeTrigger_refused (risingEdge_iff_getLsbD.2 ⟨hb, hl⟩) ha)

/-! ## The reads -/

/-- Settles O8: the level is widened with zeros. -/
theorem triggerReadReturnsLevel : Obligations.TriggerReadReturnsLevel := by
  intro s
  rw [BitVec.ofNat_toNat]
  rfl

/-- Settles O9: the word drawn for a read of BUSY while acquiring is never 0. -/
theorem busyReadTellsAcquiring : Obligations.BusyReadTellsAcquiring := fun _ =>
  ⟨fun ha => congrArg answerWord (readBusy_idle ha),
    fun ha => ⟨_, Laws.Config.drawNonzero_ne_zero _, congrArg answerWord (readBusy_acquiring ha)⟩⟩

theorem execRdSample_of_lt {i : Nat} (hi : i < Config.params.bufDepth) (s : State) :
    execRdSample i s = answerWord (readSample Config.params i s) := if_pos hi

theorem execRdSample_of_ge {i : Nat} (hi : Config.params.bufDepth ≤ i) (s : State) :
    execRdSample i s = .refused (.rejected .unassigned) := if_neg (Nat.not_lt.2 hi)

/-- Settles O12: inside the buffer the read gives the cell or a draw, and beyond it there is no such word. -/
theorem sampleReadReturnsCell : Obligations.SampleReadReturnsCell := fun _ s =>
  ⟨fun _ hi ha hw => (execRdSample_of_lt hi s).trans (congrArg answerWord (readSample_cell ha hw)),
    fun hi hd => ⟨_, (execRdSample_of_lt hi s).trans (congrArg answerWord (readSample_draw hd))⟩,
    fun hi => execRdSample_of_ge hi s⟩

/-! ## The other writes and the reserved operations -/

/-- Settles O10: the device ignores the word written to BUSY. -/
theorem busyWriteChangesNothing : Obligations.BusyWriteChangesNothing := fun _ _ => rfl

theorem writeDac_accepted {v : Word} (h : dacAccepts v = true) (s : State) :
    writeDac v s = (s.withV { s.v with dac := some (loHalf v) }).onBus .wr dacOff v := if_pos h

theorem writeDac_rejected {v : Word} (h : ¬ dacAccepts v = true) (s : State) :
    writeDac v s = s.onBus .wr dacOff v := if_neg h

/-- Settles O11: the words that DAC_VALUE accepts are those from 1 to 65535. -/
theorem dacWriteSetsLegalLevel : Obligations.DacWriteSetsLegalLevel := by
  intro v s
  refine ⟨fun h => congrArg _ (writeDac_accepted (dacAccepts_iff.2 h) s), fun h => congrArg _ (writeDac_rejected ?_ s)⟩
  rw [dacAccepts_iff]
  omega

/-- Settles O13: neither operation looks at the state. -/
theorem reservedOperationsRefused : Obligations.ReservedOperationsRefused := fun _ _ _ => ⟨rfl, rfl⟩

/-! ## The frame -/

namespace Wrote

variable {s t : State} {off : Nat} {v : Word}

/-- No write but that of TRIGGER starts an acquisition (R121). -/
theorem acquiring_eq (h : Wrote s off v t) (ho : off ≠ triggerOff) : t.v.acquiring = s.v.acquiring := by
  cases h with
  | nothing h => rw [h]; rfl
  | line ho' => exact absurd ho' ho
  | level _ _ h => rw [h]; rfl

/-- No write but that of DAC_VALUE sets the level (R125). -/
theorem dac_eq (h : Wrote s off v t) (ho : off ≠ dacOff) : t.v.dac = s.v.dac := by
  cases h with
  | nothing h => rw [h]; rfl
  | line _ _ h => rw [h]; rfl
  | level ho' => exact absurd ho' ho

end Wrote

/-- A register transaction that completes has read back a word, or it has written, at TRIGGER only as WR.TRIGGER and at
DAC_VALUE only as WR.DAC. -/
theorem exec_register_cases {v : Word} {n : Nat} {i : Instr} {s t : State}
    (hi : i ∈ [.wrTrigger v, .rdTrigger, .rdBusy, .wrBusy v, .wrDac v, .rdSample n]) (h : exec i s = .next t) :
    ReadBack s t ∨ ∃ off, Wrote s off v t ∧ (i ≠ .wrTrigger v → off ≠ triggerOff) ∧ (i ≠ .wrDac v → off ≠ dacOff) := by
  simp only [List.mem_cons, List.not_mem_nil, or_false] at hi
  rcases hi with rfl | rfl | rfl | rfl | rfl | rfl
  · simp only [exec, execWrTrigger] at h
    cases hw : writeTrigger v s with
    | error why => rw [hw] at h; cases h
    | ok u =>
      rw [hw] at h
      cases h
      exact .inr ⟨_, writeTrigger_cases hw, fun hne => absurd rfl hne, fun _ => nofun⟩
  · cases h
    exact .inl ⟨0, _, _, rfl⟩
  · cases h
    obtain ⟨k, hk⟩ := readBusy_cases s
    exact .inl ⟨k, _, _, by rw [hk]⟩
  · cases h
    exact .inr ⟨_, writeBusy_cases v s, fun _ => nofun, fun _ => nofun⟩
  · cases h
    exact .inr ⟨_, writeDac_cases v s, fun _ => nofun, fun hne => absurd rfl hne⟩
  · rcases Nat.lt_or_ge n Config.params.bufDepth with hn | hn
    · rw [exec, execRdSample_of_lt hn] at h
      cases h
      obtain ⟨k, hk⟩ := readSample_cases Config.params n s
      exact .inl ⟨k, _, _, by rw [hk]⟩
    · rw [exec, execRdSample_of_ge hn] at h
      cases h

/-- Settles O14: a read changes the ports and the number of draws only, a write the bus and the register it is for. -/
theorem registerTransactionFrame : Obligations.RegisterTransactionFrame := by
  intro v n i s t hi h
  rcases exec_register_cases hi h with hr | ⟨off, hw, htrig, hdac⟩
  · obtain ⟨k, off, w, rfl⟩ := hr
    refine ⟨fun _ => rfl, rfl, rfl, rfl, rfl, fun _ => ⟨rfl, rfl⟩, fun _ => rfl, fun b hb hd => ?_⟩
    cases hb
    cases hd
  · exact ⟨fun a => by rw [hw.buf_eq], hw.c_eq, hw.k_eq, hw.waiting_eq, hw.agenda_eq,
      fun hne => ⟨hw.trig_eq (htrig hne), hw.acquiring_eq (htrig hne)⟩, fun hne => hw.dac_eq (hdac hne),
      fun _ _ _ => hw.answer_eq⟩

/-! ## Completion -/

/-- Settles O15: the buffer is filled from the next draw on, one draw a cell. -/
theorem completionFillsBuffer : Obligations.CompletionFillsBuffer := by
  intro s rest hagenda
  rw [step_move hagenda]
  refine ⟨fun ha => ⟨_, if_pos ha, rfl, ?_, ?_, rfl, rfl, rfl, rfl, rfl, rfl⟩, fun ha => if_neg (ne_true_of_eq_false ha)⟩
  · exact fun i hi => Memory.readWord_fill _ _ _ hi
  · exact fun a hout => Memory.read_fill_outside _ _ _ _ hout

/-! ## A device that never completes -/

/-- The controller polls an acquiring device, and nobody else makes a move. -/
structure State.PollsInVain (s : State) : Prop where
  agenda : s.agenda = []
  busy : s.c.st = .busy
  acquiring : s.v.acquiring = true

/-- A run goes on after a step that answers a next state. -/
theorem run_succ_of_step {M : Host.Core} {s t : M.State} (h : M.step s = .next t) (n : Nat) :
    M.run (n + 1) s = M.run n t := by
  rw [Host.Core.run, h]

namespace State.PollsInVain

variable {s : State}

theorem step_eq (h : s.PollsInVain) : step s = stepPoll Config.params (s.begin []) := by
  rw [step_unattended h.agenda (by rw [h.busy]; exact nofun), controllerStep, State.begin_c, h.busy]

/-- A poll with others left is counted, and the session goes on as it was (R148). -/
theorem step_again (h : s.PollsInVain) (hp : s.c.polls + 1 ≠ Config.params.pollLimit) :
    ∃ t, step s = .next t ∧ t.PollsInVain ∧ t.c = { s.c with polls := s.c.polls + 1 } ∧ t.v = s.v := by
  refine ⟨_, h.step_eq.trans (stepPoll_again h.acquiring hp), ⟨?_, h.busy, ?_⟩, rfl, ?_⟩
  · exact readBusy_agenda _
  · exact (congrArg Device.acquiring (readBusy_device _)).trans h.acquiring
  · exact readBusy_device _

/-- The last poll ends the session with the timeout (R150). -/
theorem step_timeout (h : s.PollsInVain) (hp : s.c.polls + 1 = Config.params.pollLimit) :
    ∃ t, step s = .next t ∧ t.v = s.v ∧ t.c = { s.c with
      polls := s.c.polls + 1, raw := [], result := .condition s.c.seq .acquisitionTimeout, st := .idle } :=
  ⟨_, h.step_eq.trans (stepPoll_timeout h.acquiring hp), readBusy_device _, rfl⟩

/-- With `n` polls left before the last one, the session ends with the timeout after `n + 1` steps (R132, R150). -/
theorem run_timeout (n : Nat) (h : s.PollsInVain) (hn : s.c.polls + (n + 1) = Config.params.pollLimit) :
    ∃ t : State, core.run (n + 1) s = .next t ∧ t.v = s.v ∧ t.c = { s.c with
      polls := Config.params.pollLimit, raw := [], result := .condition s.c.seq .acquisitionTimeout, st := .idle } := by
  induction n generalizing s with
  | zero =>
    obtain ⟨t, ht, hv, hc⟩ := h.step_timeout hn
    exact ⟨t, run_succ_of_step (M := core) ht 0, hv, hn ▸ hc⟩
  | succ n ih =>
    obtain ⟨u, hu, hpolls, hc, hv⟩ := h.step_again (by omega)
    obtain ⟨t, ht, htv, htc⟩ := ih hpolls (by rw [hc]; simp only; omega)
    refine ⟨t, (run_succ_of_step (M := core) hu _).trans ht, htv.trans hv, ?_⟩
    rw [htc, hc]

end State.PollsInVain

/-- Settles O33: each step is a poll that finds BUSY nonzero, and the last of those allowed raises the condition. -/
theorem neverCompletingDeviceTimesOut : Obligations.NeverCompletingDeviceTimesOut := by
  intro s hagenda hbusy hacq hlt
  have hs : s.PollsInVain := ⟨hagenda, hbusy, hacq⟩
  obtain ⟨n, hn⟩ := Nat.exists_eq_add_of_lt hlt
  obtain ⟨t, ht, hv, hc⟩ := hs.run_timeout n hn.symm
  have hleft : Config.params.pollLimit - s.c.polls = n + 1 := by omega
  exact ⟨t, hleft ▸ ht, congrArg Controller.st hc, congrArg Controller.result hc, congrArg Controller.polls hc,
    congrArg Controller.raw hc, hv⟩

end Sys2Proof.Machine
end

section
/-! PROOFS. A session of the acquisition controller (41_acquire.md rules R140 to R161): the request port, each of the
controller's steps, the result port, the bound of a session, the one thing that stops it, the transition table, and a whole
session under one schedule. -/

namespace Sys2Proof.Machine

/-! ## The request port and the result port -/

/-- A request the buffer cannot hold is refused (R142, D3). -/
theorem accept_refused {φ : Type} {p : Params φ} {r : Request} (s : State) (h : p.bufDepth < r.wordCount) :
    accept p r s = .refused .wordCountBeyondBuffer := if_pos h

theorem execAcquire_idle (r : Request) {s : State} (hst : s.c.st = .idle) :
    execAcquire r s = accept Config.params r s := by
  rw [execAcquire, hst]

theorem execAcquire_waits (r : Request) {s : State} (hst : s.c.st ≠ .idle) :
    execAcquire r s = .next (enqueue r s) := by
  cases hc : s.c.st with
  | idle => exact absurd hc hst
  | triggering | busy | ready => rw [execAcquire, hc]

/-- Settles O16: `Idle` alone accepts, and acceptance tests the request's size only. -/
theorem acquireAcceptedOrWaits : Obligations.AcquireAcceptedOrWaits := fun r s =>
  ⟨fun hst hw => (execAcquire_idle r hst).trans (accept_ok s hw),
    fun hst hw => (execAcquire_idle r hst).trans (accept_refused s hw),
    fun hst => execAcquire_waits r hst⟩

/-- Settles O52: acceptance writes `C`, but not its `diag`; waiting writes the list of requests. -/
theorem acquireFrame : Obligations.AcquireFrame := by
  intro r s t h
  rcases execAcquire_ok h with ⟨_, _, rfl⟩ | ⟨_, rfl⟩
  · exact ⟨fun _ => rfl, rfl, rfl, rfl, rfl, rfl, rfl, rfl, .inr rfl⟩
  · exact ⟨fun _ => rfl, rfl, rfl, rfl, rfl, rfl, rfl, rfl, .inl rfl⟩

section
variable {φ : Type} {p : Params φ} {n : Nat} {s : State}

theorem acceptWaiting_idle {r : Request} (hst : s.c.st = .idle) (hr : s.waiting[n]? = some r) :
    acceptWaiting p n s = accept p r { s with waiting := s.waiting.eraseIdx n } := by
  rw [acceptWaiting, hst, hr]

theorem acceptWaiting_stuck (h : s.c.st ≠ .idle ∨ s.waiting[n]? = none) :
    acceptWaiting p n s = .fault .notEnabled := by
  rw [acceptWaiting]
  split
  · rename_i r hst hr
    exact h.elim (absurd hst) (fun hnone => nomatch hr.symm.trans hnone)
  · rfl

end

/-- Settles O17: the named request leaves the list and is accepted or refused as one presented in `Idle` is. -/
theorem waitingRequestAccepted : Obligations.WaitingRequestAccepted := by
  intro s n rest ha
  rw [step_move ha]
  exact ⟨fun r hst hr hw => (acceptWaiting_idle (s := s.begin rest) hst hr).trans (accept_ok _ hw),
    fun r hst hr hw => (acceptWaiting_idle (s := s.begin rest) hst hr).trans (accept_refused _ hw),
    fun h => acceptWaiting_stuck (s := s.begin rest) h⟩

theorem takeResult_some {s : State} (h : s.c.result ≠ .none) :
    takeResult s = .next ((s.withC { s.c with result := .none }).answering (.result s.c.result)) := by
  cases hr : s.c.result with
  | none => exact absurd hr h
  | block | condition => rw [takeResult, hr]

theorem takeResult_none {s : State} (h : s.c.result = .none) : takeResult s = .fault .notEnabled := by
  rw [takeResult, h]

/-- Settles O27: the port's two kinds of result are taken alike. -/
theorem takingClearsResult : Obligations.TakingClearsResult := by
  intro s rest ha
  rw [step_move ha]
  exact ⟨fun h => takeResult_some h, fun h => takeResult_none h⟩

/-! ## The words of the phases -/

theorem loHalf_zext32 (d : Half) : loHalf (zext32 d) = d := by
  apply BitVec.eq_of_toNat_eq
  have hlt := d.isLt
  simp only [loHalf, zext32, BitVec.extractLsb'_toNat, BitVec.toNat_setWidth, Nat.shiftRight_zero]
  omega

/-- A level fits DAC_VALUE when it is not 0 (R125, R143). -/
theorem dacAccepts_zext32 {d : Half} : dacAccepts (zext32 d) = true ↔ d ≠ 0 := by
  have hlt := d.isLt
  rw [dacAccepts_iff, zext32, BitVec.toNat_setWidth_of_le (by omega), ne_eq, ← BitVec.toNat_inj]
  simp only [BitVec.ofNat_eq_ofNat, BitVec.toNat_ofNat, Nat.zero_mod]
  omega

/-- The write of a zero-extended level: 0 is rejected like any other word outside the range (R125, D9). -/
theorem writeDac_zext32 (d : Half) (s : State) :
    writeDac (zext32 d) s =
      (s.withV { s.v with dac := if d = 0 then s.v.dac else some d }).onBus .wr dacOff (zext32 d) := by
  by_cases hd : d = 0
  · rw [writeDac_rejected (by simp [dacAccepts_zext32, hd]), if_pos hd]; rfl
  · rw [writeDac_accepted (dacAccepts_zext32.2 hd), loHalf_zext32, if_neg hd]

/-- The rising write of the strobe, unless it finds a low line and an acquiring device (R121, R144). -/
theorem writeTrigger_one_taken {s : State} (h : ¬ (s.v.trig = 0 ∧ s.v.acquiring = true)) :
    writeTrigger 1 s = .ok ((s.withV { s.v with
      trig := 1
      acquiring := if s.v.trig = 0 then true else s.v.acquiring }).onBus .wr triggerOff 1) := by
  by_cases hl : s.v.trig = 0
  · rw [writeTrigger_one hl (by simpa [hl] using h), if_pos hl]
  · have hr : risingEdge s.v.trig 1 = false := eq_false_of_ne_true fun hrise => hl (risingEdge_iff.1 hrise).2
    rw [writeTrigger_ok fun hrise => (nomatch hr.symm.trans hrise.1), hr, Bool.or_false, if_neg hl]; rfl

/-- The sample read gives some word; at rest, with the cell filled, it is the cell's, and no draw is made (R127, R152). -/
theorem readSample_word {φ : Type} (p : Params φ) (i : Nat) (s : State) :
    ∃ w n, readSample p i s = (w, (s.drew n).onBus .rd (sampleOff p i) w) ∧
      ∀ x, s.v.acquiring = false → s.v.buf.readWord (sampleOff p i) = some x → w = x ∧ n = 0 := by
  by_cases h : s.v.acquiring = true ∨ s.v.buf.readWord (sampleOff p i) = none
  · refine ⟨_, 1, readSample_draw h, fun x ha hx => ?_⟩
    simp [ha, hx] at h
  · simp only [not_or, Bool.not_eq_true] at h
    obtain ⟨hrest, hcell⟩ := h
    obtain ⟨w, hw⟩ := Option.ne_none_iff_exists'.1 hcell
    exact ⟨w, 0, readSample_cell hrest hw, fun x _ hx => ⟨Option.some.inj (hw.symm.trans hx), rfl⟩⟩

/-! ## One equation for each of the controller's steps (R143 to R154) -/

section
variable {φ : Type} {p : Params φ} {s : State}

theorem controllerStep_dac {d : Half} (hst : s.c.st = .triggering) (hph : s.c.ph = .tDac)
    (hd : s.c.req.dacValue = some d) :
    controllerStep p s = .next (((s.withV { s.v with
      dac := if d = 0 then s.v.dac else some d }).onBus .wr dacOff (zext32 d)).withC { s.c with ph := .tHigh }) := by
  rw [controllerStep, hst, hph]
  simp only [stepDac, hd, regWrite, regTarget_dac, writeDac_zext32]
  rfl

theorem controllerStep_high (hst : s.c.st = .triggering) (hph : s.c.ph = .tHigh)
    (h : ¬ (s.v.trig = 0 ∧ s.v.acquiring = true)) :
    controllerStep p s = .next (((s.withV { s.v with
      trig := 1
      acquiring := if s.v.trig = 0 then true else s.v.acquiring }).onBus .wr triggerOff 1).withC
        { s.c with ph := .tLow }) := by
  rw [controllerStep, hst, hph]
  simp only [stepHigh, regWrite, regTarget_trigger, writeTrigger_one_taken h]
  rfl

theorem controllerStep_high_refused (hst : s.c.st = .triggering) (hph : s.c.ph = .tHigh)
    (hl : s.v.trig = 0) (ha : s.v.acquiring = true) : controllerStep p s = .refused .strobeWhileAcquiring := by
  rw [controllerStep, hst, hph]
  simp only [stepHigh, regWrite, regTarget_trigger, writeTrigger_one_acquiring hl ha]

theorem controllerStep_low (hst : s.c.st = .triggering) (hph : s.c.ph = .tLow) :
    controllerStep p s =
      .next (((s.withV { s.v with trig := 0 }).onBus .wr triggerOff 0).withC { s.c with ph := .tDiag }) := by
  rw [controllerStep, hst, hph]
  simp only [stepLow, regWrite, regTarget_trigger, writeTrigger_zero]
  rfl

theorem controllerStep_diag (hst : s.c.st = .triggering) (hph : s.c.ph = .tDiag) :
    controllerStep p s = .next ((s.onBus .rd triggerOff (s.v.trig.setWidth 32)).withC
      { s.c with diag := s.v.trig.setWidth 32, st := .busy }) := by
  rw [controllerStep, hst, hph]
  simp only [stepDiag, regRead, regTarget_trigger]
  rfl

theorem controllerStep_busy (hst : s.c.st = .busy) : controllerStep p s = stepPoll p s := by
  simp only [controllerStep, hst]

theorem controllerStep_sample (hv : p.Valid) (hst : s.c.st = .ready) (hi : s.c.idx < s.c.req.wordCount)
    (hw : s.c.req.wordCount ≤ p.bufDepth) {w : Word} {n : Nat}
    (hr : readSample p s.c.idx s = (w, (s.drew n).onBus .rd (sampleOff p s.c.idx) w)) :
    controllerStep p s = .next (((s.drew n).onBus .rd (sampleOff p s.c.idx) w).withC
      { s.c with raw := s.c.raw ++ [w], idx := s.c.idx + 1 }) := by
  rw [controllerStep, hst]
  simp only [if_pos hi, stepSample, regRead_sample hv (Nat.lt_of_lt_of_le hi hw), hr]
  rfl

theorem controllerStep_deliver (hst : s.c.st = .ready) (hi : s.c.idx = s.c.req.wordCount) :
    controllerStep p s = .next (deliver p s) := by
  simp only [controllerStep, hst, hi, Nat.lt_irrefl, if_false, if_true]

end

/-! ## The controller's steps as named moves -/

/-- Settles O19: the zero-extended level is accepted unless it is 0. -/
theorem dacPhaseWritesLevel : Obligations.DacPhaseWritesLevel :=
  fun _ _ _ ha hst hph hd => (step_move ha).trans (controllerStep_dac hst hph hd)

/-- Settles O20: on a low line the word 1 rises, and on a high one it has no edge. -/
theorem highPhaseStrobes : Obligations.HighPhaseStrobes := fun _ _ ha hst hph =>
  ⟨fun h => (step_move ha).trans (controllerStep_high hst hph h),
    fun ⟨hl, hq⟩ => (step_move ha).trans (controllerStep_high_refused hst hph hl hq)⟩

/-- Settles O21: the word 0 has no rising edge, so it is never refused. -/
theorem lowPhaseLowersLine : Obligations.LowPhaseLowersLine :=
  fun _ _ ha hst hph => (step_move ha).trans (controllerStep_low hst hph)

/-- Settles O22: the word read is the level widened with zeros, and no test is made of it. -/
theorem diagPhaseEntersBusy : Obligations.DiagPhaseEntersBusy := by
  intro s rest ha hst hph
  rw [BitVec.ofNat_toNat]
  exact (step_move ha).trans (controllerStep_diag hst hph)

/-- The poll of a device at rest makes no draw and puts the word 0 on the bus (R123, R149). -/
theorem stepPoll_at_rest {φ : Type} {p : Params φ} {s : State} (hq : s.v.acquiring = false) :
    stepPoll p s = .next ((s.onBus .rd busyOff 0).withC { s.c with polls := s.c.polls + 1, st := .ready }) := by
  rw [stepPoll_zero hq, readBusy_idle hq]

/-- Settles O23: a device at rest answers 0, and the bound is then not looked at. -/
theorem zeroPollEndsBusy : Obligations.ZeroPollEndsBusy := by
  intro s rest ha hst hq
  rw [step_move ha]
  exact (controllerStep_busy (s := s.begin rest) hst).trans (stepPoll_at_rest hq)

/-- Settles O24: while the device acquires the word read is never 0, so the bound decides. -/
theorem nonzeroPollCountsOrTimesOut : Obligations.NonzeroPollCountsOrTimesOut := by
  intro s rest ha hst hq
  have hpoll : step s = stepPoll Config.params (s.begin rest) := (step_move ha).trans (controllerStep_busy hst)
  refine ⟨Config.drawNonzero s.draws, Laws.Config.drawNonzero_ne_zero _, ?_⟩
  split
  · rw [hpoll, stepPoll_timeout (s := s.begin rest) hq ‹_›, readBusy_acquiring (s := s.begin rest) hq]; rfl
  · rw [hpoll, stepPoll_again (s := s.begin rest) hq ‹_›, readBusy_acquiring (s := s.begin rest) hq]; rfl

/-- Settles O25: the index is inside the buffer, so the offset is that of a sample word. -/
theorem readyReadsNextSample : Obligations.ReadyReadsNextSample := by
  intro s rest ha hst hi hw
  obtain ⟨w, n, hr, hcell⟩ := readSample_word Config.params s.c.idx (s.begin rest)
  have hstep := controllerStep_sample (s := s.begin rest) Laws.Config.params_valid hst hi hw hr
  exact ⟨w, n, (step_move ha).trans hstep, hcell⟩

/-- Settles O26: the delivery decodes as DECODE does. -/
theorem readyDeliversBlock : Obligations.ReadyDeliversBlock := fun s _ ha hst hi =>
  ⟨decodeBlock s.c.raw Config.params.layout, rfl, List.length_map .., List.length_map ..,
    (step_move ha).trans (controllerStep_deliver hst hi)⟩

/-! ## The bound of a session and what stops it -/

/-- The greatest count, that of phase `T_DAC`, is the bound of R156. -/
theorem Controller.stepsLeft_le {φ : Type} (p : Params φ) (c : Controller) :
    c.stepsLeft p ≤ 4 + p.pollLimit + c.req.wordCount + 1 := by
  cases hst : c.st with
  | triggering => cases hph : c.ph <;> simp only [Controller.stepsLeft, hst, hph] <;> omega
  | idle | busy | ready => simp only [Controller.stepsLeft, hst]; omega

/-- A step of a session uses up at least one of the steps left (R156). -/
theorem SessionStep.stepsLeft_lt {φ : Type} {p : Params φ} {s t : State} (h : SessionStep p s t)
    (hs : s.c.sessionOk p) : t.c.stepsLeft p < s.c.stepsLeft p := by
  cases h with
  | dac d u hst hph _ _ h | high u hst hph _ h | low u hst hph _ h | diag hst hph h =>
    subst h
    simp only [Controller.stepsLeft, State.withC_c, hst, hph]
    omega
  | pollZero hst _ h | pollAgain hst _ _ h =>
    obtain ⟨_, _, hpolls, _, _⟩ := (Controller.sessionOk_busy hst).1 hs
    subst h
    simp only [Controller.stepsLeft, State.withC_c, hst]
    omega
  | sample w n hst _ _ h | timeout hst _ _ h | deliver hst _ h =>
    subst h
    simp only [Controller.stepsLeft, State.withC_c, hst]
    omega

/-- Settles O31: the steps left fall with every step, and are never more than the bound. -/
theorem sessionStepsDecrease : Obligations.SessionStepsDecrease := fun _ _ hi _ h =>
  ⟨(controllerStep_cases Laws.Config.params_valid h).stepsLeft_lt hi.session, Controller.stepsLeft_le _ _⟩

/-- A poll always answers (R148). -/
theorem stepPoll_next {φ : Type} (p : Params φ) (s : State) : ∃ t, stepPoll p s = .next t := by
  cases ha : s.v.acquiring with
  | false => exact ⟨_, stepPoll_zero ha⟩
  | true =>
    by_cases hp : s.c.polls + 1 = p.pollLimit
    · exact ⟨_, stepPoll_timeout ha hp⟩
    · exact ⟨_, stepPoll_again ha hp⟩

/-- Settles O32: the invariant gives phase `T_DAC` its level and a sample read an offset inside the buffer; only the rising
write can be refused. -/
theorem controllerStopsOnlyAtStrobe : Obligations.ControllerStopsOnlyAtStrobe := by
  intro s hi hne
  cases hst : s.c.st with
  | idle => exact absurd hst hne
  | triggering =>
    obtain ⟨_, _, _, _, _, hlevel⟩ := (Controller.sessionOk_triggering hst).1 hi.session
    cases hph : s.c.ph with
    | tDac =>
      obtain ⟨d, hd⟩ := Option.isSome_iff_exists.1 (hlevel hph)
      exact .inl ⟨_, controllerStep_dac hst hph hd⟩
    | tHigh =>
      by_cases h : s.v.trig = 0 ∧ s.v.acquiring = true
      · obtain ⟨hl, ha⟩ := h
        exact .inr ⟨controllerStep_high_refused hst hph hl ha, rfl, rfl, ha⟩
      · exact .inl ⟨_, controllerStep_high hst hph h⟩
    | tLow => exact .inl ⟨_, controllerStep_low hst hph⟩
    | tDiag => exact .inl ⟨_, controllerStep_diag hst hph⟩
  | busy =>
    rw [controllerStep_busy hst]
    exact .inl (stepPoll_next _ _)
  | ready =>
    obtain ⟨_, hle, _, hfits⟩ := (Controller.sessionOk_ready hst).1 hi.session
    rcases Nat.lt_or_eq_of_le hle with hidx | hidx
    · obtain ⟨w, n, hr, _⟩ := readSample_word Config.params s.c.idx s
      exact .inl ⟨_, controllerStep_sample Laws.Config.params_valid hst hidx hfits hr⟩
    · exact .inl ⟨_, controllerStep_deliver hst hidx⟩

/-! ## The transition table -/

section
variable {φ : Type} {p : Params φ} {s t : State}

/-- The edges of R141 that the controller's own steps make. -/
theorem SessionStep.edge (h : SessionStep p s t) (hne : t.c.st ≠ s.c.st) :
    (s.c.st = .triggering ∧ t.c.st = .busy ∧ s.c.ph = .tDiag ∧ t.bus = some ⟨.rd, triggerOff, t.c.diag⟩) ∨
    (s.c.st = .busy ∧ t.c.st = .ready ∧ t.bus = some ⟨.rd, busyOff, 0⟩) ∨
    (s.c.st = .busy ∧ t.c.st = .idle ∧ t.c.polls = p.pollLimit ∧
      (∃ w : Word, w ≠ 0 ∧ t.bus = some ⟨.rd, busyOff, w⟩) ∧ t.c.result = .condition s.c.seq .acquisitionTimeout) ∨
    (s.c.st = .ready ∧ t.c.st = .idle ∧ s.c.idx = s.c.req.wordCount ∧ ∃ b, t.c.result = .block s.c.seq b) := by
  cases h with
  | dac d u _ _ _ _ h => subst h; exact absurd rfl hne
  | high u _ _ _ h | low u _ _ _ h => subst h; exact absurd rfl hne
  | diag hst hph h => subst h; exact .inl ⟨hst, rfl, hph, rfl⟩
  | pollZero hst ha h =>
    rw [readBusy_idle ha] at h
    subst h
    exact .inr (.inl ⟨hst, rfl, rfl⟩)
  | pollAgain _ _ _ h => subst h; exact absurd rfl hne
  | timeout hst ha hp h =>
    rw [readBusy_acquiring ha] at h
    subst h
    exact .inr (.inr (.inl ⟨hst, rfl, hp, ⟨_, Laws.Config.drawNonzero_ne_zero _, rfl⟩, rfl⟩))
  | sample w n _ _ _ h => subst h; exact absurd rfl hne
  | deliver hst hi h => subst h; exact .inr (.inr (.inr ⟨hst, rfl, hi, _, rfl⟩))

/-- A controller step that stays in `Busy` is a counted poll of a nonzero word, not the last one (R148). -/
theorem SessionStep.stays_busy (h : SessionStep p s t) (hst : s.c.st = .busy) (heq : t.c.st = s.c.st) :
    (∃ w : Word, w ≠ 0 ∧ t.bus = some ⟨.rd, busyOff, w⟩) ∧ t.c.polls = s.c.polls + 1 ∧
      s.c.polls + 1 ≠ p.pollLimit := by
  cases h with
  | pollAgain _ ha hp h =>
    rw [readBusy_acquiring ha] at h
    subst h
    exact ⟨⟨_, Laws.Config.drawNonzero_ne_zero _, rfl⟩, rfl, hp⟩
  | pollZero _ _ h | timeout _ _ _ h => subst h; exact nomatch heq.trans hst
  | dac _ _ hst' | high _ hst' | low _ hst' | diag hst' | sample _ _ hst' | deliver hst' =>
    exact nomatch hst'.symm.trans hst

/-- A controller step that stays in `Ready` is the next sample's read (R152). -/
theorem SessionStep.stays_ready (h : SessionStep p s t) (hst : s.c.st = .ready) (heq : t.c.st = s.c.st) :
    s.c.idx < s.c.req.wordCount ∧ t.c.idx = s.c.idx + 1 ∧
      ∃ w, t.bus = some ⟨.rd, sampleOff p s.c.idx, w⟩ := by
  cases h with
  | sample w n _ hi _ h => subst h; exact ⟨hi, rfl, w, rfl⟩
  | deliver _ _ h => subst h; exact nomatch heq.trans hst
  | dac _ _ hst' | high _ hst' | low _ hst' | diag hst' | pollZero hst' | pollAgain hst' | timeout hst' =>
    exact nomatch hst'.symm.trans hst

end

/-- In a session the step is the controller's, named or not (log 5). -/
theorem step_session {s : State} {rest : List Event}
    (ha : s.agenda = [] ∧ rest = [] ∨ s.agenda = .move .controller :: rest) (hst : s.c.st ≠ .idle) :
    step s = controllerStep Config.params (s.begin rest) := by
  rcases ha with ⟨ha, rfl⟩ | ha
  · exact step_unattended ha hst
  · exact step_move ha

theorem sessionStep_of_step {s t : State} (ha : s.agenda = [] ∨ ∃ rest, s.agenda = .move .controller :: rest)
    (hst : s.c.st ≠ .idle) (h : step s = .next t) : ∃ rest, SessionStep Config.params (s.begin rest) t := by
  obtain ⟨rest, ha⟩ : ∃ rest, s.agenda = [] ∧ rest = [] ∨ s.agenda = .move .controller :: rest := by
    rcases ha with ha | ⟨rest, ha⟩
    · exact ⟨[], .inl ⟨ha, rfl⟩⟩
    · exact ⟨rest, .inr ha⟩
  exact ⟨rest, controllerStep_cases Laws.Config.params_valid ((step_session ha hst).symm.trans h)⟩

/-- An operation changes the session's state only by the acceptance of the request it presents (R142). -/
theorem Executed.edge {p : Params Phys} {i : Instr} {s t : State} (h : Executed p i s t) (hne : t.c.st ≠ s.c.st) :
    ∃ r, i = .acquire r ∧ s.c.st = .idle ∧ r.wordCount ≤ p.bufDepth ∧ t = s.withC (s.c.accepted r) := by
  cases h with
  | accepted r hi hst hw h => exact ⟨r, hi, hst, hw, h⟩
  | wrote off v h => exact absurd (congrArg Controller.st h.c_eq) hne
  | read h => obtain ⟨n, off, w, rfl⟩ := h; exact absurd rfl hne
  | enqueued r _ _ h => subst h; exact absurd rfl hne
  | pure h => obtain ⟨k, a, rfl⟩ := h; exact absurd rfl hne

/-- Settles O53: the edge from `Idle` is an acceptance, the others are the controller's own, and a controller step that
stays has made its read. -/
theorem transitionTable : Obligations.TransitionTable := by
  intro s t h
  refine ⟨fun hne => ?_, fun ha heq => ⟨fun hst => ?_, fun hst => ?_⟩⟩
  · cases step_cases h with
    | waited _ _ h => subst h; exact absurd rfl hne
    | executed x i rest ha hd h =>
      obtain ⟨r, rfl, hst, hw, rfl⟩ := h.edge hne
      exact .inr (.inl ⟨hst, rfl, hw, rfl, .inl ⟨x, rest, ha, hd, rfl⟩⟩)
    | session rest _ h => exact .inr (.inr (h.edge hne))
    | accepted n r rest ha hst hr hw h =>
      subst h
      exact .inr (.inl ⟨hst, rfl, hw, rfl, .inr ⟨n, ha.imp And.left fun ha => ⟨rest, ha⟩, hr, rfl⟩⟩)
    | completed rest _ _ h => subst h; exact absurd rfl hne
    | taken rest _ _ h => subst h; exact absurd rfl hne
    | systemReset rest ha _ => exact .inl ⟨rest, .inl ha⟩
    | controllerReset rest ha _ => exact .inl ⟨rest, .inr ha⟩
  · obtain ⟨rest, hs⟩ := sessionStep_of_step ha (by rw [hst]; exact nofun) h
    obtain ⟨hbus, hpolls, hlast⟩ := hs.stays_busy hst heq
    refine ⟨hbus, hpolls, fun hi => ?_⟩
    obtain ⟨_, _, hlt, _, _⟩ := (Controller.sessionOk_busy hst).1 hi.session
    exact hpolls ▸ Nat.lt_of_le_of_ne hlt hlast
  · obtain ⟨rest, hs⟩ := sessionStep_of_step ha (by rw [hst]; exact nofun) h
    exact hs.stays_ready hst heq

/-! ## A whole session -/

/-- A run with a property follows from a step and a run with it from there. -/
theorem exists_run_succ {s u : State} {n : Nat} {Q : State → Prop} (h : step s = .next u)
    (hr : ∃ t : State, core.run n u = .next t ∧ Q t) : ∃ t : State, core.run (n + 1) s = .next t ∧ Q t := by
  obtain ⟨t, ht, hq⟩ := hr
  exact ⟨t, (run_succ_of_step (M := core) h n).trans ht, hq⟩

/-- A run goes on where a shorter one stopped. -/
theorem run_add_of_run {M : Host.Core} {s t : M.State} {m : Nat} (h : M.run m s = .next t) (n : Nat) :
    M.run (m + n) s = M.run n t := by
  induction m generalizing s with
  | zero => cases h; rw [Nat.zero_add]
  | succ m ih =>
    rw [Host.Core.run] at h
    split at h
    · rename_i u hu
      rw [Nat.succ_add, run_succ_of_step hu, ih h]
    all_goals cases h

/-- The end of session number `seq`: the block of `n` words, the draws from number `d` on, is on the port (R154). -/
structure State.Delivered (t : State) (seq d n : Nat) : Prop where
  idle : t.c.st = .idle
  number : t.c.seq = seq
  agenda : t.agenda = []
  rest : t.v.acquiring = false
  result : t.c.result = .block seq
    (decodeBlock ((List.range n).map fun i => Config.drawWord (d + i)) Config.params.layout)

/-- A session left to itself that reads a buffer completed with the draws from number `d` on: the words kept are the first
of them. -/
structure State.ReadsOut (s : State) (d : Nat) : Prop where
  agenda : s.agenda = []
  ready : s.c.st = .ready
  rest : s.v.acquiring = false
  cells : ∀ i, i < Config.params.bufDepth →
    s.v.buf.readWord (sampleOff Config.params i) = some (Config.drawWord (d + i))
  words : s.c.raw = (List.range s.c.idx).map fun i => Config.drawWord (d + i)
  fits : s.c.req.wordCount ≤ Config.params.bufDepth

namespace State.ReadsOut

variable {s : State} {d : Nat}

theorem step_eq (h : s.ReadsOut d) : step s = controllerStep Config.params (s.begin []) :=
  step_unattended h.agenda (by rw [h.ready]; exact nofun)

/-- The next word of the completion is read and kept (R152). -/
theorem step_sample (h : s.ReadsOut d) (hi : s.c.idx < s.c.req.wordCount) :
    ∃ t, step s = .next t ∧ t.ReadsOut d ∧ t.c.idx = s.c.idx + 1 ∧ t.c.req = s.c.req ∧ t.c.seq = s.c.seq := by
  have hcell := h.cells s.c.idx (Nat.lt_of_lt_of_le hi h.fits)
  have hwords : s.c.raw ++ [Config.drawWord (d + s.c.idx)] =
      (List.range (s.c.idx + 1)).map fun i => Config.drawWord (d + i) := by
    rw [List.range_succ, List.map_append, ← h.words]; rfl
  have hread := readSample_cell (s := s.begin []) h.rest hcell
  have hstep := controllerStep_sample (s := s.begin []) (n := 0) Laws.Config.params_valid h.ready hi h.fits hread
  exact ⟨_, h.step_eq.trans hstep, ⟨rfl, h.ready, h.rest, h.cells, hwords, h.fits⟩, rfl, rfl, rfl⟩

theorem step_deliver (h : s.ReadsOut d) (hi : s.c.idx = s.c.req.wordCount) :
    step s = .next (deliver Config.params (s.begin [])) :=
  h.step_eq.trans (controllerStep_deliver h.ready hi)

/-- With `n` words left to read, the block of all of them is delivered after `n + 1` steps (R152, R154). -/
theorem run_delivers (n : Nat) (h : s.ReadsOut d) (hn : s.c.idx + n = s.c.req.wordCount) :
    ∃ t : State, core.run (n + 1) s = .next t ∧ t.Delivered s.c.seq d s.c.req.wordCount := by
  induction n generalizing s with
  | zero =>
    refine exists_run_succ (h.step_deliver hn) ⟨_, rfl, rfl, rfl, rfl, h.rest, ?_⟩
    rw [← hn, Nat.add_zero, ← h.words]
    rfl
  | succ n ih =>
    obtain ⟨u, hu, hread, hidx, hreq, hseq⟩ := h.step_sample (by omega)
    rw [← hreq, ← hseq]
    exact exists_run_succ hu (ih hread (by rw [hidx, hreq]; omega))

end State.ReadsOut

/-- An accepted session before its strobe, in phase `ph`, with a device at rest, and `moves` to come. -/
structure State.BeforeStrobe (s : State) (ph : Phase) (moves : List Event) : Prop where
  agenda : s.agenda = moves
  triggering : s.c.st = .triggering
  phase : s.c.ph = ph
  line : s.v.trig = 0
  rest : s.v.acquiring = false
  words : s.c.raw = []
  index : s.c.idx = 0
  fits : s.c.req.wordCount ≤ Config.params.bufDepth

/-- The moves after phase `T_DAC` in this schedule: the strobe, the diagnostic read, the completion. -/
def strobeMoves : List Event := List.replicate 3 (.move .controller) ++ [.move .completion]

theorem step_completion {s : State} {rest : List Event} (ha : s.agenda = .move .completion :: rest)
    (hq : s.v.acquiring = true) :
    step s = .next (((s.begin rest).withV { s.v with
      buf := s.v.buf.fill Config.params.sampleBase s.draws Config.params.bufDepth
      acquiring := false }).drew Config.params.bufDepth) :=
  (step_move ha).trans (if_pos hq)

/-- The poll of a session left to itself, with the device at rest (R149). -/
theorem step_pollZero {s : State} (ha : s.agenda = []) (hst : s.c.st = .busy) (hq : s.v.acquiring = false) :
    step s = .next (((s.begin []).onBus .rd busyOff 0).withC { s.c with polls := s.c.polls + 1, st := .ready }) :=
  (step_unattended ha (by rw [hst]; exact nofun)).trans
    ((controllerStep_busy (s := s.begin []) hst).trans (stepPoll_at_rest hq))

namespace State.BeforeStrobe

variable {s : State}

/-- Phase `T_DAC` leads to the strobe (R143). -/
theorem step_dac {moves : List Event} (h : s.BeforeStrobe .tDac (.move .controller :: moves)) {d : Half}
    (hd : s.c.req.dacValue = some d) :
    ∃ t, step s = .next t ∧ t.BeforeStrobe .tHigh moves ∧ t.c = { s.c with ph := .tHigh } ∧ t.draws = s.draws :=
  ⟨_, dacPhaseWritesLevel s d moves h.agenda h.triggering h.phase hd,
    ⟨rfl, h.triggering, rfl, h.line, h.rest, h.words, h.index, h.fits⟩, rfl, rfl⟩

/-- The strobe, the diagnostic read, a completion and the first poll lead to a buffer of fresh words (R144 to R149). -/
theorem run_strobe (h : s.BeforeStrobe .tHigh strobeMoves) :
    ∃ t : State, core.run 5 s = .next t ∧
      t.ReadsOut s.draws ∧ t.c.idx = 0 ∧ t.c.req = s.c.req ∧ t.c.seq = s.c.seq := by
  have hwords : s.c.raw = (List.range s.c.idx).map fun i => Config.drawWord (s.draws + i) := by
    rw [h.words, h.index]; rfl
  have hacq : (if s.v.trig = 0 then true else s.v.acquiring) = true := if_pos h.line
  refine exists_run_succ ((highPhaseStrobes s _ h.agenda h.triggering h.phase).1 (by simp [h.rest])) ?_
  refine exists_run_succ (lowPhaseLowersLine _ _ rfl h.triggering rfl) ?_
  refine exists_run_succ (diagPhaseEntersBusy _ _ rfl h.triggering rfl) ?_
  refine exists_run_succ (step_completion rfl hacq) ?_
  refine exists_run_succ (step_pollZero rfl rfl rfl) ⟨_, rfl, ?_, h.index, rfl, rfl⟩
  exact ⟨rfl, rfl, rfl, fun _ hi => Memory.readWord_fill _ _ _ hi, hwords, h.fits⟩

/-- From its strobe on the session delivers what the completion draws (R144 to R154). -/
theorem run_delivers (h : s.BeforeStrobe .tHigh strobeMoves) :
    ∃ t : State, core.run (5 + (s.c.req.wordCount + 1)) s = .next t ∧
      t.Delivered s.c.seq s.draws s.c.req.wordCount := by
  obtain ⟨u, hu, hread, hidx, hreq, hseq⟩ := h.run_strobe
  obtain ⟨t, ht, hdel⟩ := hread.run_delivers s.c.req.wordCount (by rw [hidx, hreq, Nat.zero_add])
  rw [hreq, hseq] at hdel
  exact ⟨t, (run_add_of_run (M := core) hu _).trans ht, hdel⟩

/-- An accepted session, with its phase `T_DAC` where the request has a level, delivers what the completion draws. -/
theorem run_session (h : s.BeforeStrobe (if s.c.req.dacValue = none then .tHigh else .tDac)
      (List.replicate (if s.c.req.dacValue = none then 3 else 4) (.move .controller) ++ [.move .completion])) :
    ∃ t : State, core.run ((if s.c.req.dacValue = none then 5 else 6) + (s.c.req.wordCount + 1)) s = .next t ∧
      t.Delivered s.c.seq s.draws s.c.req.wordCount := by
  cases hd : s.c.req.dacValue with
  | none =>
    rw [hd] at h
    exact run_delivers h
  | some d =>
    rw [hd] at h
    obtain ⟨u, hu, hstrobe, hc, hdraws⟩ := step_dac h hd
    obtain ⟨t, ht, hdel⟩ := hstrobe.run_delivers
    rw [hc, hdraws] at hdel
    rw [hc] at ht
    have hsteps : 6 + (s.c.req.wordCount + 1) = 5 + (s.c.req.wordCount + 1) + 1 := by omega
    exact ⟨t, hsteps ▸ (run_succ_of_step (M := core) hu _).trans ht, hdel⟩

end State.BeforeStrobe

/-- ACQUIRE, presented to a controller in `Idle` with the device at rest, is accepted (R142). -/
theorem step_acquire {s : State} {r : Request} {moves : List Event} (hw : r.wordCount ≤ Config.params.bufDepth)
    (hst : s.c.st = .idle) (hl : s.v.trig = 0) (hq : s.v.acquiring = false)
    (ha : s.agenda = .present (encode Config.params (.acquire r)) :: moves) :
    ∃ t, step s = .next t ∧ t.BeforeStrobe (if r.dacValue = none then .tHigh else .tDac) moves ∧
      t.c.req = r ∧ t.c.seq = s.c.seq + 1 ∧ t.draws = s.draws := by
  have hexec := (execAcquire_idle r (s := s.begin moves) hst).trans (accept_ok _ hw)
  exact ⟨_, (step_present ha (decode_encode Laws.Config.params_valid trivial)).trans hexec,
    ⟨rfl, rfl, rfl, hl, hq, rfl, rfl, hw⟩, rfl, rfl, rfl⟩

/-- Settles O34: after acceptance the session's own run delivers, since no draw is made before the completion. -/
theorem sessionDeliversItsCapture : Obligations.SessionDeliversItsCapture := by
  intro s r hw hst hl hq ha
  obtain ⟨u, hu, hbefore, rfl, hseq, hdraws⟩ := step_acquire hw hst hl hq ha
  obtain ⟨t, ht, hdel⟩ := hbefore.run_session
  rw [hseq, hdraws] at hdel
  have hsteps : (if u.c.req.dacValue = none then 5 else 6) + 1 + u.c.req.wordCount + 1 =
      (if u.c.req.dacValue = none then 5 else 6) + (u.c.req.wordCount + 1) + 1 := by omega
  exact ⟨t, hsteps ▸ (run_succ_of_step (M := core) hu _).trans ht, hdel.idle, hdel.number, hdel.agenda, hdel.rest,
    hdel.result⟩

end Sys2Proof.Machine
end

section
/-! PROOFS. DECODE and ENCODE, the sample word demultiplexer (42_sample_decode.md rules R170 to R176): the channels of a
decoded block and the words of an encoded one, index by index, and the two round trips, first of blocks, then of the
operations. -/

namespace Sys2Proof.Machine

variable {raw : List Word} {b : ChannelBlock} {l : Layout}

/-! ## The halves of a word -/

theorem loSample_val (w : Word) : (loSample w).val = (w.extractLsb' 0 16).toInt := s16Of_val (loHalf w)

theorem hiSample_val (w : Word) : (hiSample w).val = (w.extractLsb' 16 16).toInt := s16Of_val (hiHalf w)

theorem joinSamples_eq (hi lo : S16) : joinSamples hi lo = BitVec.ofInt 16 hi.val ++ BitVec.ofInt 16 lo.val := by
  rw [joinSamples, u16Of_eq, u16Of_eq]

/-! ## Blocks -/

theorem decodeBlock_channelA_at {i : Nat} {w : Word} (h : raw[i]? = some w) :
    (decodeBlock raw l).channelA[i]? = some (sampleA l w) := by
  rw [decodeBlock, List.getElem?_map, h, Option.map_some]

theorem decodeBlock_channelB_at {i : Nat} {w : Word} (h : raw[i]? = some w) :
    (decodeBlock raw l).channelB[i]? = some (sampleB l w) := by
  rw [decodeBlock, List.getElem?_map, h, Option.map_some]

theorem encodeBlock_length (h : b.channelA.length = b.channelB.length) :
    (encodeBlock b l).length = b.channelA.length := by
  rw [encodeBlock, List.length_zipWith, ← h, Nat.min_self]

theorem encodeBlock_at {i : Nat} {x y : S16} (hx : b.channelA[i]? = some x) (hy : b.channelB[i]? = some y) :
    (encodeBlock b l)[i]? = some (wordOf l x y) :=
  List.getElem?_zipWith_eq_some.2 ⟨x, y, hx, hy, rfl⟩

/-- Each word is split and joined again (R175). -/
theorem encodeBlock_decodeBlock (raw : List Word) (l : Layout) : encodeBlock (decodeBlock raw l) l = raw := by
  simp only [encodeBlock, decodeBlock, List.zipWith_map, List.zipWith_self, wordOf_samples, List.map_id']

/-- Each pair of samples is joined and split again; with one length for both channels no sample is left over (R176). -/
theorem decodeBlock_encodeBlock (h : b.channelA.length = b.channelB.length) :
    decodeBlock (encodeBlock b l) l = b := by
  have hfst : sampleA l ∘ Function.uncurry (wordOf l) = Prod.fst := funext fun x => sampleA_wordOf l x.1 x.2
  have hsnd : sampleB l ∘ Function.uncurry (wordOf l) = Prod.snd := funext fun x => sampleB_wordOf l x.1 x.2
  rw [decodeBlock, encodeBlock, ← List.map_uncurry_zip_eq_zipWith, List.map_map, List.map_map, hfst, hsnd,
    List.map_fst_zip h.le, List.map_snd_zip h.ge]

/-! ## The operations -/

theorem exec_decode (raw : List Word) (l : Layout) (s : State) :
    exec (.decode raw l) s = .next (s.answering (.channels (decodeBlock raw l))) := rfl

theorem exec_encode (h : b.channelA.length = b.channelB.length) (s : State) :
    exec (.encode b l) s = .next (s.answering (.rawBlock (encodeBlock b l))) := if_pos h

theorem exec_encode_unequal (h : b.channelA.length ≠ b.channelB.length) (s : State) :
    exec (.encode b l) s = .refused .unequalLengths := if_neg h

/-- Settles O35: each channel is the list of words under one of the layout's two samples. -/
theorem decodeSplitsWords : Obligations.DecodeSplitsWords := by
  intro raw l s
  refine ⟨decodeBlock raw l, exec_decode raw l s, List.length_map .., List.length_map .., fun i w hw =>
    ⟨sampleA l w, sampleB l w, decodeBlock_channelA_at hw, decodeBlock_channelB_at hw, ?_, ?_⟩⟩
  · rintro rfl
    exact ⟨loSample_val w, hiSample_val w⟩
  · rintro rfl
    exact ⟨hiSample_val w, loSample_val w⟩

/-- Settles O36: the words are the pairs of samples under the layout's join. -/
theorem encodeJoinsSamples : Obligations.EncodeJoinsSamples := by
  refine fun b l s => ⟨fun h => ⟨encodeBlock b l, exec_encode h s, encodeBlock_length h, fun i x y hx hy => ?_⟩,
    fun h => exec_encode_unequal h s⟩
  rw [encodeBlock_at hx hy]
  constructor
  · rintro rfl
    exact congrArg some (joinSamples_eq y x)
  · rintro rfl
    exact congrArg some (joinSamples_eq x y)

/-- Settles O37: a decoded block has channels of one length, and encoding it returns the words. -/
theorem encodeInvertsDecode : Obligations.EncodeInvertsDecode := by
  refine fun raw l s => ⟨_, _, exec_decode raw l s, rfl, ?_⟩
  rw [exec_encode (decodeBlock_lengths raw l), encodeBlock_decodeBlock]
  rfl

/-- Settles O38: decoding the words of a block returns the block. -/
theorem decodeInvertsEncode : Obligations.DecodeInvertsEncode := by
  refine fun b l s h => ⟨_, _, exec_encode h s, rfl, ?_⟩
  rw [exec_decode, decodeBlock_encodeBlock h]
  rfl

end Sys2Proof.Machine
end

section
/-! PROOFS. The spike classifier and BUCKET (43_spike_classify.md rules R185 to R204): the rule of one sample, what the events
of a run show of the list, and that no operation of format CMD but ACQUIRE reads the state. -/

namespace Sys2Proof.Machine

variable {e : BandEdges} {on off dead : Nat} {x : S16} {k : Classifier}

/-! ## One sample -/

theorem Classifier.track_greater (h : k.peakVal.val.natAbs < x.val.natAbs) :
    k.track x = { k with peakIdx := k.i, peakVal := x } := if_pos (isNewPeak_iff.2 h)

theorem Classifier.track_not_greater (h : x.val.natAbs ≤ k.peakVal.val.natAbs) : k.track x = k :=
  if_neg fun hp => absurd (isNewPeak_iff.1 hp) (Nat.not_lt.2 h)

/-- The running peak moves to the sample examined or stays, and nothing else changes (R187). -/
theorem Classifier.track_eq {pi : Nat} {pv : S16}
    (h : k.peakVal.val.natAbs < x.val.natAbs ∧ pi = k.i ∧ pv = x ∨
      x.val.natAbs ≤ k.peakVal.val.natAbs ∧ pi = k.peakIdx ∧ pv = k.peakVal) :
    k.track x = { k with peakIdx := pi, peakVal := pv } := by
  rcases h with ⟨h, rfl, rfl⟩ | ⟨h, rfl, rfl⟩
  · exact track_greater h
  · exact track_not_greater h

@[simp] theorem Classifier.track_i (x : S16) (k : Classifier) : (k.track x).i = k.i := by
  unfold track
  split <;> rfl

@[simp] theorem Classifier.track_inSpike (x : S16) (k : Classifier) : (k.track x).inSpike = k.inSpike := by
  unfold track
  split <;> rfl

@[simp] theorem Classifier.track_onsetIdx (x : S16) (k : Classifier) : (k.track x).onsetIdx = k.onsetIdx := by
  unfold track
  split <;> rfl

@[simp] theorem Classifier.track_events (x : S16) (k : Classifier) : (k.track x).events = k.events := by
  unfold track
  split <;> rfl

theorem hystSample_quiet (hs : k.inSpike = false) (hx : x.val.natAbs ≤ on) : hystSample e on off x k = k := by
  simp [hystSample, hs, isOnset_iff, hx]

theorem hystSample_onset (hs : k.inSpike = false) (hx : on < x.val.natAbs) :
    hystSample e on off x k = k.onset x := by
  simp [hystSample, hs, isOnset_iff, hx]

theorem hystSample_close (hs : k.inSpike = true) (hx : x.val.natAbs ≤ off) :
    hystSample e on off x k = k.close e := by
  simp [hystSample, hs, isRelease_iff, hx]

theorem hystSample_track (hs : k.inSpike = true) (hx : off < x.val.natAbs) :
    hystSample e on off x k = k.track x := by
  simp [hystSample, hs, isRelease_iff, hx]

/-- Settles O39: outside a spike the onset test decides; inside, the close test before the peak test. -/
theorem hysteresisSampleRule : Obligations.HysteresisSampleRule := fun _ _ _ _ _ =>
  ⟨hystSample_quiet, hystSample_onset, hystSample_close,
    fun hs hx hp => (hystSample_track hs hx).trans (Classifier.track_greater hp),
    fun hs hx hp => (hystSample_track hs hx).trans (Classifier.track_not_greater hp)⟩

/-- The close test of the skip-window mode, after the sample has been counted (R195). -/
def Classifier.closeFull (e : BandEdges) (dead : Nat) (k : Classifier) : Classifier :=
  if k.cnt = dead then k.close e else k

theorem skipSample_quiet (hs : k.inSpike = false) (hx : x.val.natAbs ≤ on) : skipSample e on dead x k = k := by
  simp [skipSample, hs, isOnset_iff, Nat.not_lt.2 hx]

theorem skipSample_onset (hs : k.inSpike = false) (hx : on < x.val.natAbs) :
    skipSample e on dead x k = ({ k.onset x with cnt := 1 } : Classifier).closeFull e dead := by
  simp [skipSample, Classifier.closeFull, Classifier.onset, hs, isOnset_iff, hx]

theorem skipSample_inside (hs : k.inSpike = true) :
    skipSample e on dead x k = ({ k.track x with cnt := k.cnt + 1 } : Classifier).closeFull e dead := by
  simp [skipSample, Classifier.closeFull, hs]

/-- Settles O41: an onset counts 1, a sample inside counts one more, and a count of `dead` closes the window. -/
theorem skipSampleRule : Obligations.SkipSampleRule := by
  refine fun e on dead x k => ⟨skipSample_quiet, fun hs hx hd => ?_, fun hs hx hd => ?_,
    fun pi pv hp => ⟨fun hs hc => ?_, fun hs hc => ?_⟩⟩
  · exact (skipSample_onset hs hx).trans (if_neg hd.symm)
  · rw [skipSample_onset hs hx, Classifier.closeFull, if_pos hd.symm]
    simp [Classifier.close, Classifier.event, Classifier.onset, mag, ← hs]
  · rw [skipSample_inside hs, Classifier.track_eq hp]
    exact if_neg hc
  · rw [skipSample_inside hs, Classifier.track_eq hp]
    exact if_pos hc

/-! ## A run carries nothing over -/

/-- Both classifiers are outside a spike, at one index and with the same events. -/
structure Classifier.SameRest (a b : Classifier) : Prop where
  left_outside : a.inSpike = false
  right_outside : b.inSpike = false
  i_eq : a.i = b.i
  events_eq : a.events = b.events

theorem Classifier.sameRest_start (a b : Classifier) : a.start.SameRest b.start := ⟨rfl, rfl, rfl, rfl⟩

theorem Classifier.SameRest.advance {a b : Classifier} (h : a.SameRest b) : a.advance.SameRest b.advance :=
  ⟨h.left_outside, h.right_outside, congrArg (· + 1) h.i_eq, h.events_eq⟩

/-- Two classifiers at rest that begin a spike differ in the count at most. -/
theorem Classifier.SameRest.onset_eq {a b : Classifier} (h : a.SameRest b) (x : S16) (n : Nat) :
    ({ a.onset x with cnt := n } : Classifier) = { b.onset x with cnt := n } := by
  simp only [Classifier.onset, h.i_eq, h.events_eq]

theorem skipRun_events_eq (e : BandEdges) (on dead : Nat) {a b : Classifier} (h : a.SameRest b) (xs : List S16) :
    (skipRun e on dead a xs).events = (skipRun e on dead b xs).events := by
  have hrun : skipRun e on dead a xs = skipRun e on dead b xs ∨
      (skipRun e on dead a xs).SameRest (skipRun e on dead b xs) := by
    refine List.foldl_rel (r := fun a b : Classifier => a = b ∨ a.SameRest b) (.inr h) fun x _ a b hab => ?_
    rcases hab with rfl | hab
    · exact .inl rfl
    · rcases Nat.lt_or_ge on x.val.natAbs with hx | hx
      · rw [skipSample_onset hab.left_outside hx, skipSample_onset hab.right_outside hx, hab.onset_eq]
        exact .inl rfl
      · rw [skipSample_quiet hab.left_outside hx, skipSample_quiet hab.right_outside hx]
        exact .inr hab.advance
  exact hrun.elim (congrArg _) fun hrest => hrest.events_eq

/-- The hysteresis mode neither reads nor writes the count (R46). -/
theorem hystSample_with_cnt (e : BandEdges) (on off n : Nat) (x : S16) (k : Classifier) :
    hystSample e on off x { k with cnt := n } = { hystSample e on off x k with cnt := n } := by
  unfold hystSample Classifier.track
  split_ifs <;> rfl

theorem hystRun_events_eq (e : BandEdges) (on off : Nat) {a b : Classifier} (h : a.SameRest b) (xs : List S16) :
    (hystRun e on off a xs).events = (hystRun e on off b xs).events := by
  have hrun : (∃ n, hystRun e on off b xs = { hystRun e on off a xs with cnt := n }) ∨
      (hystRun e on off a xs).SameRest (hystRun e on off b xs) := by
    refine List.foldl_rel (r := fun a b : Classifier => (∃ n, b = { a with cnt := n }) ∨ a.SameRest b) (.inr h)
      fun x _ a b hab => ?_
    rcases hab with ⟨n, rfl⟩ | hab
    · rw [hystSample_with_cnt]
      exact .inl ⟨n, rfl⟩
    · rcases Nat.lt_or_ge on x.val.natAbs with hx | hx
      · rw [hystSample_onset hab.left_outside hx, hystSample_onset hab.right_outside hx]
        have hba := congrArg Classifier.advance (hab.onset_eq x b.cnt).symm
        exact .inl ⟨b.cnt, hba⟩
      · rw [hystSample_quiet hab.left_outside hx, hystSample_quiet hab.right_outside hx]
        exact .inr hab.advance
  rcases hrun with ⟨n, hn⟩ | hrest
  · rw [hn]
  · exact hrest.events_eq

theorem exec_classifyHyst (xs : List S16) (on off : Nat) (s : State) :
    exec (.classifyHyst xs on off) s = giveEvents (hystRun Config.params.bandEdge on off s.k.start xs) s := rfl

theorem exec_classifySkip (hd : dead ≠ 0) (xs : List S16) (s : State) :
    exec (.classifySkip xs on dead) s = giveEvents (skipRun Config.params.bandEdge on dead s.k.start xs) s := if_neg hd

theorem exec_classifySkip_zero (hd : dead = 0) (xs : List S16) (s : State) :
    exec (.classifySkip xs on dead) s = .refused .zeroDeadSamples := if_pos hd

/-- Settles O40: the run is a fold of `hystSample`, and two started classifiers are at the same rest. -/
theorem classifyHystCompletes : Obligations.ClassifyHystCompletes := fun xs on off s =>
  ⟨exec_classifyHyst xs on off s, fun e k x => ⟨rfl, hystRun_append e on off k xs x⟩,
    fun k => hystRun_events_eq _ on off (k.sameRest_start s.k) xs⟩

/-- Settles O42: the run is a fold of `skipSample`, and two started classifiers are at the same rest. -/
theorem classifySkipCompletes : Obligations.ClassifySkipCompletes := fun xs on dead s =>
  ⟨fun hd => exec_classifySkip (Nat.ne_of_gt hd) xs s, fun hd => exec_classifySkip_zero hd xs s,
    fun e k x => ⟨rfl, skipRun_append e on dead k xs x⟩,
    fun k => skipRun_events_eq _ on dead (k.sameRest_start s.k) xs⟩

/-! ## BUCKET -/

/-- In a sorted list the elements up to a bound are those of the first indices, as many as there are. -/
theorem lt_countP_le_iff {l : List Nat} (hl : l.Pairwise (· ≤ ·)) (m : Nat) {j a : Nat} (hj : l[j]? = some a) :
    j < l.countP (fun b => decide (b ≤ m)) ↔ a ≤ m := by
  induction l generalizing j with
  | nil => simp at hj
  | cons b l ih =>
    obtain ⟨hb, hl⟩ := List.pairwise_cons.1 hl
    by_cases hbm : b ≤ m
    · cases j with
      | zero => simp_all
      | succ j => simpa [hbm] using ih hl hj
    · have hall : ∀ c ∈ b :: l, ¬ c ≤ m := by
        rintro c (_ | ⟨_, hc⟩)
        · exact hbm
        · exact fun hcm => hbm ((hb c hc).trans hcm)
      have hzero : (b :: l).countP (fun b => decide (b ≤ m)) = 0 := by simpa [List.countP_eq_zero] using hall
      simpa [hzero] using hall a (List.mem_of_getElem? hj)

/-- Settles O45: the edges are sorted, so the count of those reached is the number of the band. -/
theorem bucketIsTheBand : Obligations.BucketIsTheBand := fun m _ =>
  ⟨bucketOf Config.params.bandEdge m, rfl, fun _ _ hj =>
    lt_countP_le_iff Laws.Config.params_valid.edges_sorted m hj⟩

/-! ## The pure operations -/

/-- A pure operation gives one answer from every state, or refuses from every state (R204, R230). -/
theorem exec_pure_uniform {i : Instr} (hi : i.isPure = true) :
    (∃ a, ∀ s : State, ∃ k, exec i s = .next ((s.withK k).answering a) ∧
      (k = s.k ∨ (∃ xs on off, i = .classifyHyst xs on off) ∨ ∃ xs on dead, i = .classifySkip xs on dead)) ∨
    ∃ r, ∀ s : State, exec i s = .refused r := by
  cases i with
  | decode raw l => exact .inl ⟨_, fun s => ⟨s.k, rfl, .inl rfl⟩⟩
  | bucket m => exact .inl ⟨_, fun s => ⟨s.k, rfl, .inl rfl⟩⟩
  | encode b l =>
    by_cases h : b.channelA.length = b.channelB.length
    · exact .inl ⟨_, fun s => ⟨s.k, if_pos h, .inl rfl⟩⟩
    · exact .inr ⟨_, fun s => if_neg h⟩
  | locate sig trg =>
    by_cases h : sig.length = trg.length
    · exact .inl ⟨_, fun s => ⟨s.k, if_pos h, .inl rfl⟩⟩
    · exact .inr ⟨_, fun s => if_neg h⟩
  | lutRead n =>
    cases h : Config.params.cal[n]? with
    | some y => exact .inl ⟨.phys y, fun s => ⟨s.k, by simp only [exec, execLutRead, h]; rfl, .inl rfl⟩⟩
    | none => exact .inr ⟨.indexOutsideTable, fun s => by simp only [exec, execLutRead, h]⟩
  | classifyHyst xs on off =>
    refine .inl ⟨.events (hystRun Config.params.bandEdge on off Classifier.reset.start xs).events, fun s =>
      ⟨hystRun Config.params.bandEdge on off s.k.start xs, ?_, .inr (.inl ⟨xs, on, off, rfl⟩)⟩⟩
    rw [exec_classifyHyst, hystRun_events_eq _ _ _ (Classifier.sameRest_start _ s.k)]
    rfl
  | classifySkip xs on dead =>
    by_cases hd : dead = 0
    · exact .inr ⟨_, exec_classifySkip_zero hd xs⟩
    · refine .inl ⟨.events (skipRun Config.params.bandEdge on dead Classifier.reset.start xs).events, fun s =>
        ⟨skipRun Config.params.bandEdge on dead s.k.start xs, ?_, .inr (.inr ⟨xs, on, dead, rfl⟩)⟩⟩
      rw [exec_classifySkip hd, skipRun_events_eq _ _ _ (Classifier.sameRest_start _ s.k)]
      rfl
  | wrTrigger | rdTrigger | rdBusy | wrBusy | wrDac | rdSample | rdDac | wrSample | acquire => cases hi

/-- Settles O51: the answer is the one from every state, and at most `K` changes besides. -/
theorem pureOperationFrame : Obligations.PureOperationFrame := by
  intro i s t raw b l xs ys m n hmem hexec
  have hi : i.isPure = true := by
    simp only [List.mem_cons, List.not_mem_nil, or_false] at hmem
    rcases hmem with rfl | rfl | rfl | rfl | rfl | rfl | rfl <;> rfl
  rcases exec_pure_uniform hi with ⟨a, ha⟩ | ⟨r, hr⟩
  · obtain ⟨k, hk, hkeep⟩ := ha s
    obtain rfl : (s.withK k).answering a = t := by
      rw [hk] at hexec
      cases hexec
      rfl
    refine ⟨fun _ => rfl, rfl, rfl, rfl, rfl, rfl, rfl, fun hhyst hskip => ?_, fun u => ?_⟩
    · rcases hkeep with hkeep | ⟨_, _, _, rfl⟩ | ⟨_, _, _, rfl⟩
      · exact hkeep
      · exact absurd (by simpa using hmem) hhyst
      · exact absurd (by simpa using hmem) hskip
    · obtain ⟨k', hk', -⟩ := ha u
      exact ⟨_, hk', rfl⟩
  · rw [hr s] at hexec
    cases hexec

end Sys2Proof.Machine
end

section
/-! PROOFS. The events of a classify run (43_spike_classify.md rule R202). Both modes keep one invariant over the whole list:
each event explains the samples from its onset to a stop that its onset determines, and so does the open spike up to the sample
to be examined. The modes differ in where a spike stops. -/

namespace Sys2Proof

/-- The event is the spike of the samples from its onset up to `stop`: an onset sample, the first greatest sample as peak, and
the peak's band (R186, R187, R201). -/
structure SpikeEvent.Spans (e : BandEdges) (on : Nat) (xs : List S16) (stop : Nat) (v : SpikeEvent) : Prop where
  onset_le_peak : v.onsetIndex ≤ v.peakIndex
  peak_lt_stop : v.peakIndex < stop
  peak_sample : xs[v.peakIndex]? = some v.peakHeight
  onset_sample : ∃ x, xs[v.onsetIndex]? = some x ∧ on < x.val.natAbs
  greatest : ∀ j x, v.onsetIndex ≤ j → j < stop → xs[j]? = some x →
    x.val.natAbs ≤ v.peakHeight.val.natAbs ∧ (j < v.peakIndex → x.val.natAbs < v.peakHeight.val.natAbs)
  band : v.bucket = Machine.bucketOf e v.peakHeight.val.natAbs

namespace SpikeEvent.Spans

variable {e : BandEdges} {on stop : Nat} {xs : List S16} {x : S16} {v : SpikeEvent}

theorem onset_above (h : v.Spans e on xs stop) (hx : xs[v.onsetIndex]? = some x) : on < x.val.natAbs := by
  obtain ⟨y, hy, hon⟩ := h.onset_sample
  cases hy.symm.trans hx
  exact hon

theorem peak_above (h : v.Spans e on xs stop) : on < v.peakHeight.val.natAbs := by
  obtain ⟨y, hy, hon⟩ := h.onset_sample
  exact hon.trans_le (h.greatest _ y le_rfl (h.onset_le_peak.trans_lt h.peak_lt_stop) hy).1

end SpikeEvent.Spans

end Sys2Proof

namespace Sys2Proof.Machine

/-- The index the next event's onset cannot precede: the open spike's onset, or the sample to be examined. -/
def Classifier.frontier (k : Classifier) : Nat := if k.inSpike then k.onsetIdx else k.i

theorem Classifier.frontier_inside {k : Classifier} (hs : k.inSpike = true) : k.frontier = k.onsetIdx := if_pos hs

theorem Classifier.frontier_outside {k : Classifier} (hs : k.inSpike = false) : k.frontier = k.i := by
  rw [frontier, hs, if_neg Bool.false_ne_true]

/-- The invariant of a run: the events and the open spike explain the samples examined. A spike with its onset at `o` stops at
`stop o`, and the samples from `stop o + gap` on are free for the next. -/
structure Classifier.Explains (e : BandEdges) (on : Nat) (xs : List S16) (stop : Nat → Nat) (gap : Nat) (k : Classifier) :
    Prop where
  within : k.i ≤ xs.length
  closed : ∀ v ∈ k.events, v.Spans e on xs (stop v.onsetIndex) ∧ stop v.onsetIndex + gap ≤ k.frontier
  apart : k.events.Pairwise (fun v u => stop v.onsetIndex + gap ≤ u.onsetIndex)
  pending : k.inSpike = true → (k.event e).Spans e on xs k.i

variable {e : BandEdges} {on off dead gap : Nat} {xs : List S16} {stop : Nat → Nat} {x : S16} {k : Classifier}

theorem lt_length_of_getElem?_eq {i : Nat} (h : xs[i]? = some x) : i < xs.length := (List.getElem?_eq_some_iff.1 h).1

namespace Classifier

/-! ## The current spike, one sample longer -/

theorem event_onset_spans (hx : xs[k.i]? = some x) (hon : on < x.val.natAbs) :
    ((k.onset x).event e).Spans e on xs (k.i + 1) where
  onset_le_peak := le_rfl
  peak_lt_stop := Nat.lt_succ_self _
  peak_sample := hx
  onset_sample := ⟨x, hx, hon⟩
  greatest j y (hj : k.i ≤ j) hlt hy := by
    obtain rfl : j = k.i := by omega
    cases hx.symm.trans hy
    exact ⟨le_rfl, fun h => absurd h (lt_irrefl _)⟩
  band := rfl

theorem event_track_spans (h : (k.event e).Spans e on xs k.i) (hx : xs[k.i]? = some x) :
    ((k.track x).event e).Spans e on xs (k.i + 1) := by
  obtain ⟨hpeak, hstop, hsample, honset, hgreatest, -⟩ := h
  rcases Nat.lt_or_ge k.peakVal.val.natAbs x.val.natAbs with hp | hp
  · rw [track_greater hp]
    refine ⟨(hpeak.trans_lt hstop).le, Nat.lt_succ_self _, hx, honset, fun j y hj hlt hy => ?_, rfl⟩
    rcases Nat.lt_succ_iff_lt_or_eq.1 hlt with hlt | rfl
    · have hy := (hgreatest j y hj hlt hy).1.trans_lt hp
      exact ⟨hy.le, fun _ => hy⟩
    · cases hx.symm.trans hy
      exact ⟨le_rfl, fun h => absurd h (lt_irrefl _)⟩
  · rw [track_not_greater hp]
    refine ⟨hpeak, hstop.trans (Nat.lt_succ_self _), hsample, honset, fun j y hj hlt hy => ?_, rfl⟩
    rcases Nat.lt_succ_iff_lt_or_eq.1 hlt with hlt | rfl
    · exact hgreatest j y hj hlt hy
    · cases hx.symm.trans hy
      exact ⟨hp, fun h => absurd hstop h.asymm⟩

/-! ## What keeps the invariant -/

theorem explains_start (k : Classifier) : k.start.Explains e on xs stop gap where
  within := Nat.zero_le _
  closed _ h := absurd h List.not_mem_nil
  apart := List.Pairwise.nil
  pending h := absurd h Bool.false_ne_true

namespace Explains

theorem with_cnt (h : k.Explains e on xs stop gap) (n : Nat) : Explains e on xs stop gap { k with cnt := n } :=
  ⟨h.within, h.closed, h.apart, h.pending⟩

theorem frontier_le (h : k.Explains e on xs stop gap) : k.frontier ≤ k.i := by
  cases hs : k.inSpike with
  | true => exact (frontier_inside hs).trans_le ((h.pending hs).onset_le_peak.trans (h.pending hs).peak_lt_stop.le)
  | false => exact (frontier_outside hs).le

/-- A sample outside a spike that is no onset. -/
theorem quiet (h : k.Explains e on xs stop gap) (hs : k.inSpike = false) (hx : xs[k.i]? = some x) :
    k.advance.Explains e on xs stop gap where
  within := lt_length_of_getElem?_eq hx
  closed v hv :=
    have hfree := (h.closed v hv).2.trans_eq (frontier_outside hs)
    ⟨(h.closed v hv).1, (Nat.le_succ_of_le hfree).trans_eq (frontier_outside (k := k.advance) hs).symm⟩
  apart := h.apart
  pending hs' := absurd (hs.symm.trans hs') Bool.false_ne_true

theorem onset (h : k.Explains e on xs stop gap) (hs : k.inSpike = false) (hx : xs[k.i]? = some x)
    (hon : on < x.val.natAbs) : (k.onset x).advance.Explains e on xs stop gap where
  within := lt_length_of_getElem?_eq hx
  closed v hv := ⟨(h.closed v hv).1, (h.closed v hv).2.trans_eq (frontier_outside hs)⟩
  apart := h.apart
  pending _ := event_onset_spans hx hon

theorem track (h : k.Explains e on xs stop gap) (hs : k.inSpike = true) (hx : xs[k.i]? = some x) :
    (k.track x).advance.Explains e on xs stop gap := by
  have hfrontier : (k.track x).advance.frontier = k.frontier := by
    have hs' : (k.track x).advance.inSpike = true := (track_inSpike x k).trans hs
    rw [frontier_inside hs, frontier_inside hs']
    exact track_onsetIdx x k
  refine ⟨?_, fun v hv => ?_, ?_, fun _ => ?_⟩
  · exact (congrArg (· + 1) (track_i x k)).trans_le (lt_length_of_getElem?_eq hx)
  · rw [hfrontier]
    exact h.closed v (track_events x k ▸ hv)
  · exact (track_events x k).symm ▸ h.apart
  · have hspans := event_track_spans (h.pending hs) hx
    rwa [← track_i x k] at hspans

/-- A spike that has reached its stop becomes an event. -/
theorem close (h : k.Explains e on xs stop gap) (hs : k.inSpike = true) (hstop : stop k.onsetIdx = k.i)
    (hlen : k.i + gap ≤ xs.length) : Explains e on xs stop gap { k.close e with i := k.i + gap } where
  within := hlen
  closed v hv := by
    have hle := h.frontier_le
    rcases List.mem_append.1 hv with hv | hv
    · exact ⟨(h.closed v hv).1, (h.closed v hv).2.trans (hle.trans (Nat.le_add_right _ _))⟩
    · obtain rfl := List.mem_singleton.1 hv
      refine ⟨?_, (congrArg (· + gap) hstop).le⟩
      exact hstop.symm ▸ h.pending hs
  apart := by
    refine List.pairwise_append.2 ⟨h.apart, List.pairwise_singleton _ _, fun v hv u hu => ?_⟩
    obtain rfl := List.mem_singleton.1 hu
    exact (h.closed v hv).2.trans_eq (frontier_inside hs)
  pending hs' := absurd hs' Bool.false_ne_true

end Explains

end Classifier

/-- What each sample keeps, a run from the first index keeps. -/
theorem run_invariant {P : Classifier → Prop} {f : S16 → Classifier → Classifier} (hi : ∀ x k, (f x k).i = k.i)
    (hstep : ∀ x k, xs[k.i]? = some x → P k → P (f x k).advance) (h0 : k.i = 0) (hP : P k) :
    P (xs.foldl (fun k x => (f x k).advance) k) := by
  have hrun := Array.foldl_induction (as := xs.toArray) (motive := fun n k => k.i = n ∧ P k) (init := k)
    (f := fun k x => (f x k).advance) ⟨h0, hP⟩ fun i k ⟨hki, hk⟩ =>
      ⟨congrArg (· + 1) ((hi _ k).trans hki), hstep _ k (by simp [hki]) hk⟩
  simpa using hrun.2

/-! ## The skip-window mode: a spike stops `dead` samples after its onset -/

/-- The invariant of a skip-window run: the count is the number of samples since the onset. -/
def Classifier.SkipInv (e : BandEdges) (on dead : Nat) (xs : List S16) (k : Classifier) : Prop :=
  k.Explains e on xs (· + dead) 0 ∧ (k.inSpike = true → k.onsetIdx + k.cnt = k.i)

@[simp] theorem Classifier.closeFull_i (e : BandEdges) (dead : Nat) (k : Classifier) : (k.closeFull e dead).i = k.i := by
  unfold closeFull
  split <;> rfl

/-- The close reads no index, so it may come after the index has advanced. -/
theorem Classifier.closeFull_advance (e : BandEdges) (dead : Nat) (k : Classifier) :
    (k.closeFull e dead).advance = k.advance.closeFull e dead := by
  unfold closeFull
  exact apply_ite advance _ _ _

theorem skipSample_i (e : BandEdges) (on dead : Nat) (x : S16) (k : Classifier) : (skipSample e on dead x k).i = k.i := by
  cases hs : k.inSpike with
  | true => rw [skipSample_inside hs, Classifier.closeFull_i, Classifier.track_i]
  | false =>
    rcases Nat.lt_or_ge on x.val.natAbs with hx | hx
    · rw [skipSample_onset hs hx, Classifier.closeFull_i]
      rfl
    · rw [skipSample_quiet hs hx]

theorem Classifier.SkipInv.closeFull (h : k.SkipInv e on dead xs) (hs : k.inSpike = true) :
    (k.closeFull e dead).SkipInv e on dead xs := by
  obtain ⟨hexp, hcnt⟩ := h
  unfold Classifier.closeFull
  split
  next hfull => exact ⟨hexp.close hs (hfull ▸ hcnt hs) hexp.within, fun hs' => absurd hs' Bool.false_ne_true⟩
  next => exact ⟨hexp, hcnt⟩

theorem skipSample_keeps_skipInv (hx : xs[k.i]? = some x) (h : k.SkipInv e on dead xs) :
    (skipSample e on dead x k).advance.SkipInv e on dead xs := by
  obtain ⟨hexp, hcnt⟩ := h
  cases hs : k.inSpike with
  | true =>
    rw [skipSample_inside hs, Classifier.closeFull_advance]
    refine Classifier.SkipInv.closeFull ⟨(hexp.track hs hx).with_cnt _, fun _ => ?_⟩ ?_
    · simp only [Classifier.advance, Classifier.track_i, Classifier.track_onsetIdx]
      have := hcnt hs
      omega
    · exact (Classifier.track_inSpike x k).trans hs
  | false =>
    rcases Nat.lt_or_ge on x.val.natAbs with hon | hon
    · rw [skipSample_onset hs hon, Classifier.closeFull_advance]
      exact Classifier.SkipInv.closeFull ⟨(hexp.onset hs hx hon).with_cnt _, fun _ => rfl⟩ rfl
    · rw [skipSample_quiet hs hon]
      exact ⟨hexp.quiet hs hx, fun hs' => absurd (hs.symm.trans hs') Bool.false_ne_true⟩

/-- Settles O44: the invariant with the stop `dead` samples after the onset. -/
theorem skipEventsAreWindows : Obligations.SkipEventsAreWindows := by
  intro e on dead k xs _
  obtain ⟨hexp, -⟩ : (skipRun e on dead k.start xs).SkipInv e on dead xs :=
    run_invariant (skipSample_i e on dead) (fun _ _ => skipSample_keeps_skipInv) rfl
      ⟨k.explains_start, fun hs => absurd hs Bool.false_ne_true⟩
  refine ⟨fun v hv => ?_, hexp.apart⟩
  obtain ⟨hspans, hfront⟩ := hexp.closed v hv
  exact ⟨hspans.onset_le_peak, hspans.peak_lt_stop, hfront.trans (hexp.frontier_le.trans hexp.within), hspans.peak_sample,
    hspans.peak_above, fun _ => hspans.onset_above, hspans.greatest, hspans.band⟩

/-! ## The hysteresis mode: a spike stops at the first sample after its onset that releases it -/

/-- The index of the first sample after index `o` at or below the offset threshold; not below the length if there
is none. -/
def closeIndex (off : Nat) (xs : List S16) (o : Nat) : Nat := o + 1 + (xs.drop (o + 1)).findIdx (isRelease off)

theorem closeIndex_le {o j : Nat} (ho : o < j) (hj : xs[j]? = some x) (hx : x.val.natAbs ≤ off) :
    closeIndex off xs o ≤ j := by
  obtain ⟨i, rfl⟩ := Nat.exists_eq_add_of_le (Nat.succ_le_of_lt ho)
  refine Nat.add_le_add_left (Nat.not_lt.1 fun hlt => ?_) (o + 1)
  have hnot := List.not_of_lt_findIdx hlt
  simp only [List.getElem_drop, (List.getElem?_eq_some_iff.1 hj).2, isRelease_iff.2 hx] at hnot
  cases hnot

theorem closeIndex_release {o : Nat} (h : closeIndex off xs o < xs.length) :
    ∃ x, xs[closeIndex off xs o]? = some x ∧ x.val.natAbs ≤ off := by
  refine ⟨_, List.getElem?_eq_getElem h, isRelease_iff.1 ?_⟩
  have hlt : (xs.drop (o + 1)).findIdx (isRelease off) < (xs.drop (o + 1)).length := by
    rw [List.length_drop]
    exact Nat.lt_sub_iff_add_lt'.2 h
  have hrelease := List.findIdx_getElem (w := hlt)
  rwa [List.getElem_drop] at hrelease

theorem above_of_lt_closeIndex {o j : Nat} (ho : o < j) (hlt : j < closeIndex off xs o) (hj : xs[j]? = some x) :
    off < x.val.natAbs :=
  Nat.not_le.1 fun hx => absurd hlt (Nat.not_lt.2 (closeIndex_le ho hj hx))

/-- The invariant of a hysteresis run: no sample since the onset has released the open spike. -/
def Classifier.HystInv (e : BandEdges) (on off : Nat) (xs : List S16) (k : Classifier) : Prop :=
  k.Explains e on xs (closeIndex off xs) 1 ∧ (k.inSpike = true → k.i ≤ closeIndex off xs k.onsetIdx)

theorem hystSample_i (e : BandEdges) (on off : Nat) (x : S16) (k : Classifier) : (hystSample e on off x k).i = k.i := by
  unfold hystSample Classifier.track
  split_ifs <;> rfl

theorem hystSample_keeps_hystInv (hx : xs[k.i]? = some x) (h : k.HystInv e on off xs) :
    (hystSample e on off x k).advance.HystInv e on off xs := by
  obtain ⟨hexp, hopen⟩ := h
  cases hs : k.inSpike with
  | true =>
    rcases Nat.lt_or_ge off x.val.natAbs with hoff | hoff
    · rw [hystSample_track hs hoff]
      refine ⟨hexp.track hs hx, fun _ => ?_⟩
      simp only [Classifier.advance, Classifier.track_i, Classifier.track_onsetIdx]
      refine Nat.succ_le_of_lt (Nat.lt_of_le_of_ne (hopen hs) fun heq => ?_)
      obtain ⟨y, hy, hyoff⟩ := closeIndex_release (heq ▸ lt_length_of_getElem?_eq hx)
      rw [← heq, hx] at hy
      cases hy
      omega
    · rw [hystSample_close hs hoff]
      have honset : k.onsetIdx < k.i := (hexp.pending hs).onset_le_peak.trans_lt (hexp.pending hs).peak_lt_stop
      have hclose : closeIndex off xs k.onsetIdx = k.i := Nat.le_antisymm (closeIndex_le honset hx hoff) (hopen hs)
      exact ⟨hexp.close hs hclose (lt_length_of_getElem?_eq hx), fun hs' => absurd hs' Bool.false_ne_true⟩
  | false =>
    rcases Nat.lt_or_ge on x.val.natAbs with hon | hon
    · rw [hystSample_onset hs hon]
      exact ⟨hexp.onset hs hx hon, fun _ => Nat.le_add_right _ _⟩
    · rw [hystSample_quiet hs hon]
      exact ⟨hexp.quiet hs hx, fun hs' => absurd (hs.symm.trans hs') Bool.false_ne_true⟩

/-- Settles O43: the invariant with the stop at the first sample that releases the spike. -/
theorem hysteresisEventsAreSpikes : Obligations.HysteresisEventsAreSpikes := by
  intro e on off k xs
  obtain ⟨hexp, -⟩ : (hystRun e on off k.start xs).HystInv e on off xs :=
    run_invariant (hystSample_i e on off) (fun _ _ => hystSample_keeps_hystInv) rfl
      ⟨k.explains_start, fun hs => absurd hs Bool.false_ne_true⟩
  refine ⟨closeIndex off xs, fun v hv => ?_, hexp.apart⟩
  obtain ⟨hspans, hfront⟩ := hexp.closed v hv
  exact ⟨hspans.onset_le_peak, hspans.peak_lt_stop, hspans.peak_sample, hspans.peak_above, fun _ => hspans.onset_above,
    closeIndex_release (hfront.trans (hexp.frontier_le.trans hexp.within)), fun j x hj hlt hx =>
      have ⟨hle, hfirst⟩ := hspans.greatest j x hj hlt hx
      ⟨hle, hfirst, fun ho => above_of_lt_closeIndex ho hlt hx⟩, hspans.band⟩

end Sys2Proof.Machine
end

section
/-! PROOFS. The calibration table and LOCATE (44_lut_locate.md rules R215 to R231): the table's entries, the edge of the
trigger channel, the local maxima of the signal, the windows, and what makes LOCATE's answer valid. -/

namespace Sys2Proof.Machine

/-! ## The table -/

/-- Settles O46: the index has an entry exactly below the table's length. -/
theorem lutReadReturnsEntry : Obligations.LutReadReturnsEntry := by
  refine fun k s => ⟨fun x hx => ?_, fun hk => ?_⟩
  · simp only [exec, execLutRead, hx]
    rfl
  · simp only [exec, execLutRead, List.getElem?_eq_none hk]

/-! ## The edge index -/

section

variable {threshold : Int} {a b : S16} {ts : List S16} {e j : Nat}

/-- The first difference at index `j` exceeds the threshold (R217). -/
def EdgeAt (threshold : Int) (ts : List S16) (j : Nat) : Prop :=
  ∃ a b, ts[j]? = some a ∧ ts[j + 1]? = some b ∧ threshold < b.val - a.val

@[simp] theorem edgeAt_zero_iff : EdgeAt threshold (a :: b :: ts) 0 ↔ isTriggerEdge threshold a b = true := by
  simp [EdgeAt, isTriggerEdge_iff]

@[simp] theorem edgeAt_cons_succ_iff : EdgeAt threshold (a :: ts) (j + 1) ↔ EdgeAt threshold ts j := Iff.rfl

theorem EdgeAt.succ_lt_length (h : EdgeAt threshold ts j) : j + 1 < ts.length := by
  obtain ⟨-, _, -, hb, -⟩ := h
  exact lt_length_of_getElem?_eq hb

theorem edgeIndex_eq_some_iff :
    edgeIndex threshold ts = some e ↔ EdgeAt threshold ts e ∧ ∀ j < e, ¬ EdgeAt threshold ts j := by
  fun_induction edgeIndex threshold ts generalizing e with
  | case1 | case2 => exact ⟨nofun, fun ⟨h, _⟩ => absurd h.succ_lt_length (by simp)⟩
  | case3 a b rest hedge =>
    cases e with
    | zero => simp [hedge]
    | succ e => exact ⟨nofun, fun ⟨_, hfirst⟩ => absurd (edgeAt_zero_iff.2 hedge) (hfirst 0 e.succ_pos)⟩
  | case4 a b rest hedge ih =>
    cases e with
    | zero => simp [hedge]
    | succ e => simp [Nat.forall_lt_succ_left', -Order.lt_add_one_iff, hedge, ih]

end

/-- Settles O47: the first index with an edge, and no index below it has one. -/
theorem edgeIndexIsFirstEdge : Obligations.EdgeIndexIsFirstEdge := by
  intro threshold ts e
  simp only [edgeIndex_eq_some_iff, EdgeAt, not_exists, not_and, not_lt]
  exact and_congr_right fun _ => ⟨fun h j a b hj => h j hj a b, fun h j hj a b => h j a b hj⟩

/-! ## The peaks -/

section

variable {height : Int} {a b c x : S16} {xs : List S16} {i j n : Nat}

/-- The sample `x` at index `j + 1` is above the height threshold and above both its neighbours (R218). -/
def LocalMaxAfter (height : Int) (xs : List S16) (j : Nat) (x : S16) : Prop :=
  ∃ a c, xs[j]? = some a ∧ xs[j + 1]? = some x ∧ xs[j + 2]? = some c ∧ isLocalMax height a x c = true

@[simp] theorem localMaxAfter_zero_iff :
    LocalMaxAfter height (a :: b :: c :: xs) 0 x ↔ x = b ∧ isLocalMax height a b c = true := by
  constructor
  · rintro ⟨_, _, ⟨⟩, ⟨⟩, ⟨⟩, hmax⟩
    exact ⟨rfl, hmax⟩
  · rintro ⟨rfl, hmax⟩
    exact ⟨a, c, rfl, rfl, rfl, hmax⟩

@[simp] theorem localMaxAfter_cons_succ_iff :
    LocalMaxAfter height (a :: xs) (j + 1) x ↔ LocalMaxAfter height xs j x := Iff.rfl

theorem LocalMaxAfter.add_two_lt_length (h : LocalMaxAfter height xs j x) : j + 2 < xs.length := by
  obtain ⟨-, _, -, -, hc, -⟩ := h
  exact lt_length_of_getElem?_eq hc

theorem mem_peaksFrom_iff :
    (i, x) ∈ peaksFrom height n xs ↔ ∃ j, i = n + j + 1 ∧ LocalMaxAfter height xs j x := by
  fun_induction peaksFrom height n xs with
  | case1 | case2 | case3 => exact ⟨nofun, fun ⟨_, _, h⟩ => absurd h.add_two_lt_length (by simp)⟩
  | case4 n a b c rest hmax ih | case5 n a b c rest hmax ih =>
    rw [← Nat.or_exists_add_one]
    simp [hmax, ih, Nat.add_right_comm, Nat.add_assoc]

/-- Later peaks are found in the rest of the list, so their indices are greater (R220). -/
theorem peaksFrom_ascending (height : Int) (n : Nat) (xs : List S16) :
    ((peaksFrom height n xs).map (·.1)).Pairwise (· < ·) := by
  fun_induction peaksFrom height n xs with
  | case1 | case2 | case3 => exact .nil
  | case4 n a b c rest hmax ih =>
    refine List.pairwise_cons.2 ⟨fun i hi => ?_, ih⟩
    obtain ⟨⟨_, x⟩, hmem, rfl⟩ := List.mem_map.1 hi
    obtain ⟨j, rfl, -⟩ := mem_peaksFrom_iff.1 hmem
    exact Nat.lt_succ_of_le (Nat.le_add_right _ _)
  | case5 n a b c rest hmax ih => exact ih

theorem mem_peaks_iff : (i, x) ∈ peaks height xs ↔ 1 ≤ i ∧ LocalMaxAfter height xs (i - 1) x := by
  rw [peaks, mem_peaksFrom_iff]
  constructor
  · rintro ⟨j, rfl, h⟩
    simpa using h
  · rintro ⟨hi, h⟩
    exact ⟨i - 1, by omega, h⟩

end

/-- Settles O48: what each index of the run over the list contributes, and that the indices grow. -/
theorem peaksAreLocalMaxima : Obligations.PeaksAreLocalMaxima := by
  refine fun height xs => ⟨fun i x => ?_, peaksFrom_ascending height 0 xs⟩
  rw [mem_peaks_iff]
  refine and_congr_right fun hi => ?_
  obtain ⟨j, rfl⟩ := Nat.exists_eq_add_of_le' hi
  constructor
  · rintro ⟨a, c, ha, hx, hc, hmax⟩
    obtain ⟨hax, hcx, hheight⟩ := isLocalMax_iff.1 hmax
    exact ⟨hx, hheight, ⟨a, ha, hax⟩, c, hc, hcx⟩
  · rintro ⟨hx, hheight, ⟨a, ha, hax⟩, c, hc, hcx⟩
    exact ⟨a, c, ha, hx, hc, isLocalMax_iff.2 ⟨hax, hcx, hheight⟩⟩

/-! ## The windows -/

theorem insideWindows_windowsAfter_iff {half e i : Nat} : insideWindows (windowsAfter half e) i = true ↔
    (e + 650 ≤ i + half ∧ i ≤ e + 650 + half) ∨ (e + 1250 ≤ i + half ∧ i ≤ e + 1250 + half) := by
  rw [insideWindows, decide_eq_true_iff]
  simp only [windowsAfter, win1Offset, win2Offset]
  omega

/-- Settles O50: the half width is below 300, so twice it is less than the distance of the centres, and the first window begins
after the edge. -/
theorem windowsFollowTheEdge : Obligations.WindowsFollowTheEdge := by
  intro φ p e i hp
  have hhalf := hp.half_high
  rw [insideWindows_windowsAfter_iff]
  exact ⟨Iff.rfl, by omega, by omega⟩

/-! ## LOCATE -/

section

variable {φ : Type} {p : Params φ} {e c1 c2 : Nat} {x y : φ} {sig trg : List S16}

theorem lookup_eq_some_iff {mode : LutIndexMode} {cal : List φ} :
    (cal[lookupIndex mode e c1]? = some x ∧ cal[lookupIndex mode e c2]? = some y) ↔
      (mode = .raw → cal[c1]? = some x ∧ cal[c2]? = some y) ∧
      (mode = .rebased → cal[((c1 : Int) - e).toNat]? = some x ∧ cal[((c2 : Int) - e).toNat]? = some y) := by
  cases mode with
  | raw => exact ⟨fun h => ⟨fun _ => h, nofun⟩, fun h => h.1 rfl⟩
  | rebased => exact ⟨fun h => ⟨nofun, fun _ => h⟩, fun h => h.2 rfl⟩

theorem calibrate_eq_some_iff : calibrate p e c1 c2 = some (x, y) ↔ rebase e c2 < p.indexBound ∧
    p.cal[lookupIndex p.lutIndexMode e c1]? = some x ∧ p.cal[lookupIndex p.lutIndexMode e c2]? = some y := by
  unfold calibrate
  split_ifs with hbound
  · split <;> simp_all
  · exact ⟨nofun, fun h => absurd h.1 hbound⟩

theorem calibrateAll_eq_some_iff {candidates : List Nat} {xy : φ × φ} : calibrateAll p e candidates = some xy ↔
    ∃ c1 c2, candidates = [c1, c2] ∧ calibrate p e c1 c2 = some xy := by
  unfold calibrateAll
  split
  · simp
  · exact ⟨nofun, fun ⟨c1, c2, h, _⟩ => by simp_all⟩

/-- The two physical values LOCATE finds, if it finds them (R221 to R227). -/
def locateValues (p : Params φ) (sig trg : List S16) : Option (φ × φ) :=
  (edgeIndex p.edgeThreshold trg).bind fun e =>
    calibrateAll p e (((peaks p.heightThreshold sig).map (·.1)).filter (insideWindows (windowsAfter p.winHalf e)))

theorem locateResult_eq (p : Params φ) (sig trg : List S16) : locateResult p sig trg =
    { valid := (locateValues p sig trg).isSome
      wavelengths := (locateValues p sig trg).getD (p.physZero, p.physZero)
      peakIndices := (peaks p.heightThreshold sig).map (·.1)
      peakHeights := (peaks p.heightThreshold sig).map (·.2)
      window := (edgeIndex p.edgeThreshold trg).map (windowsAfter p.winHalf) } := by
  simp only [locateResult, locateValues, nullResult]
  cases edgeIndex p.edgeThreshold trg with
  | none => rfl
  | some e =>
    simp only [Option.bind_some, Option.map_some]
    split <;> simp_all

theorem locateValues_eq_some_iff : locateValues p sig trg = some (x, y) ↔
    ∃ e c1 c2, edgeIndex p.edgeThreshold trg = some e ∧
      ((peaks p.heightThreshold sig).map (·.1)).filter (insideWindows (windowsAfter p.winHalf e)) = [c1, c2] ∧
      (c2 : Int) - e < p.indexBound ∧
      (p.lutIndexMode = .raw → p.cal[c1]? = some x ∧ p.cal[c2]? = some y) ∧
      (p.lutIndexMode = .rebased →
        p.cal[((c1 : Int) - e).toNat]? = some x ∧ p.cal[((c2 : Int) - e).toNat]? = some y) := by
  simp only [locateValues, Option.bind_eq_some_iff, calibrateAll_eq_some_iff, calibrate_eq_some_iff, lookup_eq_some_iff,
    rebase, exists_and_left]

theorem isSome_and_getD_eq_iff {o : Option φ} {z : φ} : o.isSome = true ∧ o.getD z = x ↔ o = some x := by
  cases o <;> simp

end

/-- Settles O49: the answer is valid exactly when two values are found, and carries them. -/
theorem locateFindsTwoCandidates : Obligations.LocateFindsTwoCandidates := by
  refine fun sig trg s => ⟨fun h => if_neg h, fun h => ⟨_, if_pos h, ?_⟩⟩
  rw [locateResult_eq]
  refine ⟨rfl, rfl, rfl, fun hnone => ?_, fun x y => ?_⟩
  · rw [Option.isSome_eq_false_iff, Option.isNone_iff_eq_none] at hnone
    simp only [hnone, Option.getD_none]
  · exact isSome_and_getD_eq_iff.trans locateValues_eq_some_iff

end Sys2Proof.Machine
end

section
/-! PROOFS. What goes on by itself and the resets (70_reset_and_hazards.md rules R280 to R283): the step with an empty agenda in
`Idle` and in a session, and the two reset moves. -/

namespace Sys2Proof.Machine

/-! ## A step with an empty agenda -/

section
variable {s : State} (ha : s.agenda = [])
include ha

theorem begin_eq_of_agenda_nil : s.begin [] = { s with answer := .none, bus := none } := by
  rw [State.begin, ← ha]

theorem step_agenda_nil : step s = unattended Config.params { s with answer := .none, bus := none } := by
  rw [step, ← begin_eq_of_agenda_nil ha, ha]

theorem step_idle_waits (hst : s.c.st = .idle) (hw : s.waiting = []) :
    step s = .next { s with answer := .none, bus := none } := by
  rw [step_agenda_nil ha, unattended]
  simp only [hst, hw]

/-- With requests waiting, the first is taken from the port and accepted as one presented in `Idle` is (R142, R157). -/
theorem step_idle_accepts {r : Request} {rs : List Request} (hst : s.c.st = .idle) (hw : s.waiting = r :: rs) :
    step s = accept Config.params r { s with waiting := rs, answer := .none, bus := none } := by
  rw [step_agenda_nil ha, unattended]
  simp only [hst, hw]
  exact acceptWaiting_idle hst rfl

end

/-- Settles O18: in `Idle` the waiting requests decide, and acceptance tests the first one's size. -/
theorem unattendedStep : Obligations.UnattendedStep := fun _ ha =>
  ⟨step_idle_waits ha,
    fun _ _ hst hw hsize => (step_idle_accepts ha hst hw).trans (accept_ok _ hsize),
    fun _ _ hst hw hsize => (step_idle_accepts ha hst hw).trans (accept_refused _ hsize),
    fun hst => (step_unattended ha hst).trans (congrArg _ (begin_eq_of_agenda_nil ha))⟩

/-! ## The resets -/

/-- Settles O60: each reset is a named move, and what it leaves is read off it. -/
theorem resetMoves : Obligations.ResetMoves := fun _ _ =>
  ⟨fun ha => step_move ha, fun ha => ⟨_, step_move ha, rfl, rfl, rfl⟩⟩

end Sys2Proof.Machine
end
